-- ==== Sys2Proof/Word.lean ====
section
/-! DEFINITION. The word types of the block and their plainest arithmetic (00_scope.md R10, R12): every field and register is
unsigned, and bits are numbered from 0, the least significant. -/

namespace Sys2Proof

/-- One byte of a stream or of a buffer cell. -/
abbrev Byte := BitVec 8

/-- A 16-bit header field: `sequenceId` or `payloadLength` (00_scope.md R10). -/
abbrev Half := BitVec 16

/-- A 32-bit word: a command word (30_encoding.md R90), a response's value or `R.count` (10_state.md R31, R38). -/
abbrev Word := BitVec 32

/-- The 7-bit part index of a wire header (30_encoding.md R82). -/
abbrev PartIndex := BitVec 7

end Sys2Proof
end

