-- ==== Sys2Proof/Config.lean ====
section
/-! DEFINITION. What is fixed for one block (00_scope.md R9) and the values the spec leaves open ("draws", R13). -/

namespace Sys2Proof

/-- `WIRE_BYTE_ORDER` (20_memory.md R53). -/
inductive ByteOrder where
  | big
  | little
deriving DecidableEq, Repr

/-- `PART_OVERFLOW_MODE` (40_writer.md R116). -/
inductive PartOverflowMode where
  | error
  | sourceWrap
deriving DecidableEq, Repr

/-- `IGNORE_CONSUMPTION` (41_reassembler.md R148): `FULL`, or `PREFIX` (only the three bytes of step 1). -/
inductive IgnoreConsumption where
  | full
  | prefixOnly
deriving DecidableEq, Repr

/-- The four build parameters of 00_scope.md R9. `MAX_OCTET_COUNT` is at most 2^24 by its type (D6). -/
structure Params where
  byteOrder     : ByteOrder
  maxOctetCount : Fin (2 ^ 24 + 1)
  overflowMode  : PartOverflowMode
  ignoreMode    : IgnoreConsumption
deriving DecidableEq, Repr

/-- `MAX_OCTET_COUNT` of the block that `State.reset` describes: 00_scope.md R9 gives it no default ("must be given"), so
nothing but its bound is known (DESIGN CHOICE, safe, log 1). -/
opaque Config.maxOctetCount : Fin (2 ^ 24 + 1)

/-- The parameters of the block that `State.reset` describes: R9's defaults, and the capacity left uninterpreted (log 1). -/
def Config.params : Params :=
  { byteOrder := .big, maxOctetCount := Config.maxOctetCount, overflowMode := .error, ignoreMode := .full }

/-! Draws (00_scope.md R13): "an arbitrary value of the register's width that the model does not choose". The argument is
`State.draws`, a counter the step advances (log 5). -/

/-- A drawn buffer byte: the read of an `unknown` cell (41_reassembler.md R166; log 4). -/
opaque Config.freeByte : Nat → Byte

/-- A drawn natural number, which its users bring into the bounds 20_memory.md R62 gives (logs 6, 7). -/
opaque Config.freeNat : Nat → Nat

/-- A drawn `R.expSeq` (41_reassembler.md R133; log 3). -/
opaque Config.freeSeq : Nat → Half

/-- A drawn `R.expPart` (41_reassembler.md R133; log 3). -/
opaque Config.freePart : Nat → BitVec 8

/-- A drawn `R.count` (41_reassembler.md R133; log 3). -/
opaque Config.freeCount : Nat → Word

/-- A drawn `R.recv` (41_reassembler.md R133; log 3). -/
opaque Config.freeRecv : Nat → Bool

/-- A drawn `R.complete` (41_reassembler.md R133; log 3). -/
opaque Config.freeComplete : Nat → Bool

end Sys2Proof
end

