-- ==== Sys2Proof/Syntax.lean ====
section
/-! DEFINITION. The commands of DFR-1, one constructor per row of the opcode table (30_encoding.md R94), and the operands a
host passes with a command word (10_state.md R38). -/

namespace Sys2Proof

/-- A command of the block with its operands, assembled as 30_encoding.md R98 says (zero-extended, never scaled). -/
inductive Instr where
  /-- `W.INIT` (40_writer.md R110). -/
  | wInit
  /-- `W.ADVSEQ` (40_writer.md R112). -/
  | wAdvseq
  /-- `W.WRHDR` (40_writer.md R114): `f` is the operand `F` (isFinal), `len` the operand `LEN`. -/
  | wWrhdr (f : Bool) (len : Half)
  /-- `R.INIT` (41_reassembler.md R130). -/
  | rInit
  /-- `R.DESTROY` (41_reassembler.md R133). -/
  | rDestroy
  /-- `R.RESET` (41_reassembler.md R135). -/
  | rReset
  /-- `R.ISCOMPLETE` (41_reassembler.md R140). -/
  | rIscomplete
  /-- `R.RECEIVE` (41_reassembler.md R142). -/
  | rReceive
  /-- `R.RDCOUNT` (41_reassembler.md R160). -/
  | rRdcount
  /-- `R.RDBUF` (41_reassembler.md R166): `addr` is `ADDR`, 24 bits zero-extended to 32 (30_encoding.md R93, R98). -/
  | rRdbuf (addr : Word)
deriving DecidableEq, Repr

/-- An input stream `(data, pos)` (20_memory.md R56). -/
structure InStream where
  data : List Byte
  pos  : Nat
deriving DecidableEq, Repr

/-- An output stream `(data, cap)` (20_memory.md R61). -/
structure OutStream where
  data : List Byte
  cap  : Nat
deriving DecidableEq, Repr

/-- One command as the host issues it: the tuple `(cmd, in, out)` of 10_state.md R38. -/
structure Command where
  word : Word
  inp  : InStream
  out  : OutStream
deriving DecidableEq, Repr

/-- What the host can do to the block: issue a command (10_state.md R20), or assert the reset input
(70_reset_and_hazards.md R210; log 10). -/
inductive HostEvent where
  | command (c : Command)
  | assertReset
deriving DecidableEq, Repr

end Sys2Proof
end

