-- ==== Sys2Proof/WellFormed.lean ====
section
/-! DEFINITION. Which commands and operands DFR-1 has. Field widths are in the types; what is left to check is that `ADDR`
comes from 24 bits, and that an input operand's position lies in its data. -/

namespace Sys2Proof

/-- A command some word encodes: `R.RDBUF`'s address is a zero-extended 24-bit field (30_encoding.md R93). -/
def Instr.wf : Instr → Bool
  | .rRdbuf addr => addr.toNat < 2 ^ 24
  | .wInit => true
  | .wAdvseq => true
  | .wWrhdr _ _ => true
  | .rInit => true
  | .rDestroy => true
  | .rReset => true
  | .rIscomplete => true
  | .rReceive => true
  | .rRdcount => true

/-- `pos ≤ |data|` (10_state.md R38, 20_memory.md R56). -/
abbrev InStream.wf (st : InStream) : Prop := st.pos ≤ st.data.length

/-- A command tuple of 10_state.md R38. Every word is allowed (30_encoding.md R95: decoding is total). -/
abbrev Command.wf (c : Command) : Prop := c.inp.wf

end Sys2Proof
end

