-- ==== Sys2Proof/Decode.lean ====
section
/-! DEFINITION. The DFR-1 command word (30_encoding.md R90 to R98): the decoder, total on all words and rejecting by name,
the encoder, and the opcode table's match and mask as data. -/

namespace Sys2Proof

/-- Why a word is illegal (30_encoding.md R96). -/
inductive DecodeError where
  /-- `OPC` is in no row of R94. -/
  | unknownOpcode (opc : BitVec 8)
  /-- A listed `OPC` whose `Z` bits are not all 0. -/
  | nonzeroReserved (opc : BitVec 8)
deriving DecidableEq, Repr

/-! Fields of a command word (R90 to R93, R98). -/

/-- `OPC`, bits 31:24 (R90). -/
def opcField (c : Word) : BitVec 8 := c.extractLsb' 24 8

/-- Bits 23:0: `Z` of format N (R91) and `ADDR` of format A (R93). -/
def lowField (c : Word) : BitVec 24 := c.extractLsb' 0 24

/-- Bits 23:17: `Z` of format H (R92). -/
def reservedFieldH (c : Word) : BitVec 7 := c.extractLsb' 17 7

/-- Bit 16: `F` of format H (R92). -/
def finalField (c : Word) : Bool := c.getLsbD 16

/-- Bits 15:0: `LEN` of format H (R92). -/
def lenField (c : Word) : Half := c.extractLsb' 0 16

/-- Format N (R91): the command `i`, if bits 23:0 are 0. -/
def decodeN (i : Instr) (c : Word) : Except DecodeError Instr :=
  if lowField c = 0 then .ok i else .error (.nonzeroReserved (opcField c))

/-- Format H (R92). -/
def decodeH (c : Word) : Except DecodeError Instr :=
  if reservedFieldH c = 0 then .ok (.wWrhdr (finalField c) (lenField c)) else .error (.nonzeroReserved (opcField c))

/-- Format A (R93, R98). -/
def decodeA (c : Word) : Except DecodeError Instr :=
  .ok (.rRdbuf ((lowField c).setWidth 32))

/-- The command a word selects (R94, R95), or why it is illegal (R96). -/
def decode (c : Word) : Except DecodeError Instr :=
  if opcField c = 0x01#8 then decodeN .wInit c
  else if opcField c = 0x02#8 then decodeN .wAdvseq c
  else if opcField c = 0x03#8 then decodeH c
  else if opcField c = 0x11#8 then decodeN .rInit c
  else if opcField c = 0x12#8 then decodeN .rDestroy c
  else if opcField c = 0x13#8 then decodeN .rReset c
  else if opcField c = 0x14#8 then decodeN .rIscomplete c
  else if opcField c = 0x15#8 then decodeN .rReceive c
  else if opcField c = 0x16#8 then decodeN .rRdcount c
  else if opcField c = 0x17#8 then decodeA c
  else .error (.unknownOpcode (opcField c))

/-- `OPC` of each command (R94). -/
def Instr.opcode : Instr → BitVec 8
  | .wInit => 0x01#8
  | .wAdvseq => 0x02#8
  | .wWrhdr _ _ => 0x03#8
  | .rInit => 0x11#8
  | .rDestroy => 0x12#8
  | .rReset => 0x13#8
  | .rIscomplete => 0x14#8
  | .rReceive => 0x15#8
  | .rRdcount => 0x16#8
  | .rRdbuf _ => 0x17#8

/-- Bits 23:0 of each command's word: `Z` (R91), `Z F LEN` (R92) or `ADDR` (R93). -/
def Instr.lowBits : Instr → BitVec 24
  | .wWrhdr f len => 0#7 ++ BitVec.ofBool f ++ len
  | .rRdbuf addr => addr.setWidth 24
  | .wInit => 0
  | .wAdvseq => 0
  | .rInit => 0
  | .rDestroy => 0
  | .rReset => 0
  | .rIscomplete => 0
  | .rReceive => 0
  | .rRdcount => 0

/-- The command word of a well-formed command (R90). -/
def encode (i : Instr) : Word := i.opcode ++ i.lowBits

/-- One row of the command map: `match` and `mask` (R94). -/
structure OpcodeRow where
  pattern : Word
  mask    : Word
deriving DecidableEq, Repr

/-- The row of R94 that a command stands in. -/
def Instr.row : Instr → OpcodeRow
  | .wInit => ⟨0x01000000#32, 0xFFFFFFFF#32⟩
  | .wAdvseq => ⟨0x02000000#32, 0xFFFFFFFF#32⟩
  | .wWrhdr _ _ => ⟨0x03000000#32, 0xFFFE0000#32⟩
  | .rInit => ⟨0x11000000#32, 0xFFFFFFFF#32⟩
  | .rDestroy => ⟨0x12000000#32, 0xFFFFFFFF#32⟩
  | .rReset => ⟨0x13000000#32, 0xFFFFFFFF#32⟩
  | .rIscomplete => ⟨0x14000000#32, 0xFFFFFFFF#32⟩
  | .rReceive => ⟨0x15000000#32, 0xFFFFFFFF#32⟩
  | .rRdcount => ⟨0x16000000#32, 0xFFFFFFFF#32⟩
  | .rRdbuf _ => ⟨0x17000000#32, 0xFF000000#32⟩

/-- The command map of R94, row by row. -/
def opcodeRows : List OpcodeRow :=
  [⟨0x01000000#32, 0xFFFFFFFF#32⟩, ⟨0x02000000#32, 0xFFFFFFFF#32⟩, ⟨0x03000000#32, 0xFFFE0000#32⟩,
   ⟨0x11000000#32, 0xFFFFFFFF#32⟩, ⟨0x12000000#32, 0xFFFFFFFF#32⟩, ⟨0x13000000#32, 0xFFFFFFFF#32⟩,
   ⟨0x14000000#32, 0xFFFFFFFF#32⟩, ⟨0x15000000#32, 0xFFFFFFFF#32⟩, ⟨0x16000000#32, 0xFFFFFFFF#32⟩,
   ⟨0x17000000#32, 0xFF000000#32⟩]

/-- `(c & mask) = match` (R95). -/
def OpcodeRow.matches (row : OpcodeRow) (c : Word) : Bool := c &&& row.mask == row.pattern

/-- The command word whose table bits are the low `nbits` bits of `w`, all others 0. A command word has one length (R90) and
is passed to the block as a word, so it has no byte order. -/
def tableWord (nbits w : Nat) : Word := BitVec.ofNat 32 (w % 2 ^ nbits)

/-- What the decoder reads from a word numbered as spec/opcode_table.json numbers it. -/
def decodeTableWord (nbits w : Nat) : Option Instr := (decode (tableWord nbits w)).toOption

end Sys2Proof
end

