-- ==== Sys2Proof/Machine/State.lean ====
section
/-! DEFINITION. All the state of one block (10_state.md R22 to R33, R38, R41), its parameters, and the state after reset
(70_reset_and_hazards.md R210). Plain data throughout. -/

namespace Sys2Proof.Machine

/-- `W.life` (10_state.md R22). -/
inductive WriterLife where
  | uninit
  | live
deriving DecidableEq, Repr

/-- `W.fault` (10_state.md R25). -/
inductive WriterFault where
  | none
  | useBeforeInit
deriving DecidableEq, Repr

/-- `R.life` (10_state.md R26). -/
inductive ReassemblerLife where
  | uninit
  | live
  | destroyed
deriving DecidableEq, Repr

/-- `R.fault` (10_state.md R33). -/
inductive ReassemblerFault where
  | none
  | useBeforeInit
  | useAfterDestroy
  | doubleDestroy
  | initWhileLive
deriving DecidableEq, Repr

/-- The status of a response (60_exceptions.md R180); `Status.code` gives its number. -/
inductive Status where
  | ok
  | streamUnderflow
  | streamOverflow
  | capacityExceeded
  | partOverflow
  | illegalCommand
  | addressOutOfRange
  | fault
deriving DecidableEq, Repr

/-- The response `(status, value, in', out')` of a command (10_state.md R38). -/
structure Response where
  status : Status
  value  : Word
  inp    : InStream
  out    : OutStream
deriving DecidableEq, Repr

/-- The cells of `R.buf` that hold a byte, by strictly rising address. A cell that is not listed is `unknown`
(10_state.md R32; log 4). -/
abbrev Memory := List Host.Cell

/-- The canonical form of a buffer: strictly rising addresses. An unlisted cell holds no byte, so no listed cell equals what
an unlisted one holds. -/
abbrev Memory.wf (m : Memory) : Prop := m.Pairwise fun x y => x.1 < y.1

/-- The Writer unit's registers (10_state.md R22 to R25). -/
structure Writer where
  life  : WriterLife
  seq   : Half
  part  : BitVec 8
  fault : WriterFault
deriving DecidableEq, Repr

/-- The Reassembler unit's registers and buffer (10_state.md R26 to R33). -/
structure Reassembler where
  life     : ReassemblerLife
  expSeq   : Half
  expPart  : BitVec 8
  recv     : Bool
  complete : Bool
  count    : Word
  buf      : Memory
  fault    : ReassemblerFault
deriving DecidableEq, Repr

/-- The whole state of one block and of its command interface. -/
structure State where
  /-- The build parameters (00_scope.md R9). No command writes them (10_state.md R21; log 1). -/
  params    : Params
  /-- The Writer unit. -/
  w         : Writer
  /-- The Reassembler unit. -/
  r         : Reassembler
  /-- The `in` operand of the command in progress; after it, `in'` (10_state.md R38; log 8). -/
  inp       : InStream
  /-- The `out` operand of the command in progress; after it, `out'` (10_state.md R38; log 8). -/
  out       : OutStream
  /-- The responses given so far, newest first (log 11). -/
  responses : List Response
  /-- What the host has still to issue, the next one first (log 8). -/
  pending   : List HostEvent
  /-- How many values have been drawn (00_scope.md R13): the model's own field (log 5). -/
  draws     : Nat
deriving DecidableEq, Repr

/-- Why the block stops. -/
inductive Fault where
  /-- Raised by every `W.*` command when `W.fault` is not `NONE`: a faulted unit takes no step (60_exceptions.md R186).
  Raised also by `endOfRun` when the Writer is faulted at the end of a run: such a state is never final (R186).
  Safe: the spec gives such a command no step and such a run no end (log 12). -/
  | writerFaulted
  /-- Raised by every `R.*` command when `R.fault` is not `NONE`, and by `endOfRun` when only the Reassembler is
  faulted at the end of a run (60_exceptions.md R186). Safe (log 12). -/
  | reassemblerFaulted
deriving DecidableEq, Repr

/-- What the model gives no meaning. -/
inductive Refusal where
  /-- A command that has no meaning yet, by its mnemonic. No arm of `exec` answers it. Safe. -/
  | notModelled (mnemonic : String)
  /-- Raised by `step` when the host's `in` operand has `pos > |data|`, which is no operand of 10_state.md R38.
  Safe (log 14). -/
  | malformedInputOperand
deriving DecidableEq, Repr

/-- The Writer after power-on reset (70_reset_and_hazards.md R210). `W.seq` and `W.part` are `unknown` there; the zeros are
the model's DESIGN CHOICE (log 2, unsafe). -/
def Writer.powerOn : Writer :=
  { life := .uninit, seq := 0, part := 0, fault := .none }

/-- The Reassembler after power-on reset (70_reset_and_hazards.md R210): every cell `unknown`. The counters and flags are
`unknown` there; the zeros are the model's DESIGN CHOICE (log 2, unsafe). -/
def Reassembler.powerOn : Reassembler :=
  { life := .uninit, expSeq := 0, expPart := 0, recv := false, complete := false, count := 0, buf := [], fault := .none }

/-- A block with parameters `p` after power-on reset, before the host has issued anything. -/
def State.powerOn (p : Params) : State :=
  { params := p, w := .powerOn, r := .powerOn, inp := ⟨[], 0⟩, out := ⟨[], 0⟩, responses := [], pending := [], draws := 0 }

/-- The machine right after reset (70_reset_and_hazards.md R210), for the parameters of Config (log 1). -/
def State.reset : State := State.powerOn Config.params

end Sys2Proof.Machine
end

