-- ==== Sys2Proof/Machine/Ops.lean ====
section
/-! DEFINITION. The named operations over buffer, draws, interface and lifecycle that the commands share, among them taking a
lifecycle fault: the block's only exception (60_exceptions.md R185 to R188). There is no return from one (R189). -/

namespace Sys2Proof.Machine

/-! ## The buffer (00_scope.md R14, 10_state.md R32) -/

/-- Cell `a`: its byte, or `none` when it is `unknown`. -/
def Memory.read : Memory → Nat → Option Byte
  | [], _ => none
  | (x, b) :: m, a => if x = a then some b else Memory.read m a

/-- The cells `a, a+1, …` holding the bytes of a list in order (20_memory.md R55). -/
def Memory.cellsFrom (a : Nat) : List Byte → Memory
  | [] => []
  | b :: bs => (a, b) :: Memory.cellsFrom (a + 1) bs

/-- The cells below address `a`. -/
def Memory.below (m : Memory) (a : Nat) : Memory := m.filter fun c => decide (c.1 < a)

/-- The cells at address `a` and above. -/
def Memory.fromAddr (m : Memory) (a : Nat) : Memory := m.filter fun c => decide (a ≤ c.1)

/-- `MemWrite(addr, n, bs)` with `n` the length of `bs` (00_scope.md R14). -/
def Memory.memWrite (m : Memory) (addr : Nat) (bs : List Byte) : Memory :=
  m.below addr ++ Memory.cellsFrom addr bs ++ m.fromAddr (addr + bs.length)

/-- Cells `[addr, addr + n)` become `unknown` (41_reassembler.md R150). -/
def Memory.forget (m : Memory) (addr n : Nat) : Memory :=
  m.below addr ++ m.fromAddr (addr + n)

/-- Every cell `unknown` (41_reassembler.md R130, R133). -/
def Memory.allUnknown : Memory := []

/-! ## Response codes (60_exceptions.md R180, R185) -/

/-- The 8-bit status code (60_exceptions.md R180). -/
def Status.code : Status → BitVec 8
  | .ok => 0x00#8
  | .streamUnderflow => 0x01#8
  | .streamOverflow => 0x02#8
  | .capacityExceeded => 0x03#8
  | .partOverflow => 0x04#8
  | .illegalCommand => 0x05#8
  | .addressOutOfRange => 0x06#8
  | .fault => 0xFF#8

/-- The fault code of the Writer's fault register (60_exceptions.md R185); `NONE` has none and is never answered. -/
def WriterFault.code : WriterFault → Word
  | .none => 0
  | .useBeforeInit => 1

/-- The fault code of the Reassembler's fault register (60_exceptions.md R185); `NONE` has none and is never answered. -/
def ReassemblerFault.code : ReassemblerFault → Word
  | .none => 0
  | .useBeforeInit => 1
  | .useAfterDestroy => 2
  | .doubleDestroy => 3
  | .initWhileLive => 4

/-! ## Answering a command (10_state.md R38) -/

/-- End a command with a status and a value; `in'` and `out'` are the streams as they now stand (00_scope.md R16). -/
def respond (st : Status) (v : Word) (s : State) : State :=
  { s with responses := ⟨st, v, s.inp, s.out⟩ :: s.responses }

/-- `value` of a one-bit register, zero-extended (41_reassembler.md R140). -/
def bitValue (b : Bool) : Word := (BitVec.ofBool b).setWidth 32

/-! ## Draws (00_scope.md R13) -/

/-- `in'.pos` after a `R.RECEIVE` that returns anything but `OK`: any value from `in.pos` to `|in.data|`
(20_memory.md R62; log 6). -/
def drawInputPos (s : State) : State :=
  { s with
    inp := { s.inp with pos := s.inp.pos + Config.freeNat s.draws % (s.inp.data.length - s.inp.pos + 1) }
    draws := s.draws + 1 }

/-- `out'` after `STREAM_OVERFLOW`: `k` bytes of the header `h` appended, for any `k ≤ min(cap, 4)`
(20_memory.md R62; log 7). -/
def drawOutputPrefix (h : List Byte) (s : State) : State :=
  let k := Config.freeNat s.draws % (min s.out.cap 4 + 1)
  { s with
    out := { data := s.out.data ++ h.take k, cap := s.out.cap - k }
    draws := s.draws + 1 }

/-- `MemRead(addr, 1)`: the cell's byte, or a draw when the cell is `unknown`; a drawn byte is not kept in the cell
(00_scope.md R13, R14, 41_reassembler.md R166; log 4). -/
def memRead (addr : Nat) (s : State) : Byte × State :=
  match s.r.buf.read addr with
  | some b => (b, s)
  | none => (Config.freeByte s.draws, { s with draws := s.draws + 1 })

/-! ## Lifecycle (60_exceptions.md R185 to R187) -/

/-- Taking a lifecycle fault in the Writer: the fault register is set, the response is `FAULT` with the fault code, no other
register changes (60_exceptions.md R185). -/
def raiseWriterFault (f : WriterFault) (s : State) : State :=
  respond .fault f.code { s with w := { s.w with fault := f } }

/-- Taking a lifecycle fault in the Reassembler (60_exceptions.md R185). -/
def raiseReassemblerFault (f : ReassemblerFault) (s : State) : State :=
  respond .fault f.code { s with r := { s.r with fault := f } }

/-- A Writer command has a step only if the Writer is not faulted (60_exceptions.md R186). -/
def writerCommand (k : State → State) (s : State) : Host.Outcome State Fault Refusal :=
  match s.w.fault with
  | .none => .next (k s)
  | .useBeforeInit => .fault .writerFaulted

/-- A Reassembler command has a step only if the Reassembler is not faulted (60_exceptions.md R186). -/
def reassemblerCommand (k : State → State) (s : State) : Host.Outcome State Fault Refusal :=
  match s.r.fault with
  | .none => .next (k s)
  | .useBeforeInit => .fault .reassemblerFaulted
  | .useAfterDestroy => .fault .reassemblerFaulted
  | .doubleDestroy => .fault .reassemblerFaulted
  | .initWhileLive => .fault .reassemblerFaulted

/-- The Writer's own lifecycle check, then `k` (60_exceptions.md R187). -/
def whenWriterLive (k : State → State) (s : State) : State :=
  match s.w.life with
  | .uninit => raiseWriterFault .useBeforeInit s
  | .live => k s

/-- `check_live()`, then `k`; `onFault` is what the command does to the streams before a fault is answered
(60_exceptions.md R187). -/
def whenReassemblerLive (onFault k : State → State) (s : State) : State :=
  match s.r.life with
  | .uninit => raiseReassemblerFault .useBeforeInit (onFault s)
  | .destroyed => raiseReassemblerFault .useAfterDestroy (onFault s)
  | .live => k s

/-- The end of a run, its host having nothing more to issue: the state is final, unless a unit is faulted, for a faulted
state is never a final state of a run (60_exceptions.md R186; log 12). -/
def endOfRun (s : State) : Host.Outcome State Fault Refusal :=
  match s.w.fault, s.r.fault with
  | .none, .none => .next s
  | .none, _ => .fault .reassemblerFaulted
  | .useBeforeInit, _ => .fault .writerFaulted

/-! ## The host's side of the interface (10_state.md R20, R38) -/

/-- The block takes the host's next command: its streams become the operands of the command in progress, and `rest` is what
the host has still to issue. -/
def acceptCommand (c : Command) (rest : List HostEvent) (s : State) : State :=
  { s with inp := c.inp, out := c.out, pending := rest }

/-- A word that selects no command: `ILLEGAL_COMMAND`, value 0, streams and registers unchanged (30_encoding.md R96). -/
def answerIllegal (s : State) : State := respond .illegalCommand 0 s

/-- The platform asserts the reset input: both units go to their power-on state (70_reset_and_hazards.md R210). The
parameters, the host's streams, its list and the responses it has had stay (log 10). -/
def applyReset (s : State) : State := { s with w := .powerOn, r := .powerOn }

end Sys2Proof.Machine
end

