-- ==== Sys2Proof/Machine/Operands.lean ====
section
/-! DEFINITION. The operand forms: the stream primitives (20_memory.md R56 to R61) and the codec of the 5-byte wire header
(30_encoding.md R81 to R88). -/

namespace Sys2Proof.Machine

/-! ## 16-bit fields on the wire (20_memory.md R53) -/

/-- The two bytes of a 16-bit value in stream order. -/
def u16Bytes (o : ByteOrder) (v : Half) : List Byte :=
  match o with
  | .big => [v.extractLsb' 8 8, v.extractLsb' 0 8]
  | .little => [v.extractLsb' 0 8, v.extractLsb' 8 8]

/-- The 16-bit value of two bytes in stream order. -/
def u16Value (o : ByteOrder) (b0 b1 : Byte) : Half :=
  match o with
  | .big => b0 ++ b1
  | .little => b1 ++ b0

/-! ## Input stream (20_memory.md R56 to R60) -/

/-- How many bytes are left to read (R56). -/
def InStream.remaining (st : InStream) : Nat := st.data.length - st.pos

/-- Read `k` bytes, or `none` when fewer remain (R56). -/
def inRead (k : Nat) (st : InStream) : Option (List Byte × InStream) :=
  if k ≤ InStream.remaining st then some ((st.data.drop st.pos).take k, { st with pos := st.pos + k }) else none

/-- `InReadU8()` (R57). -/
def inReadU8 (st : InStream) : Option (Byte × InStream) :=
  match inRead 1 st with
  | some ([b], st') => some (b, st')
  | _ => none

/-- `InReadU16()` (R58). -/
def inReadU16 (o : ByteOrder) (st : InStream) : Option (Half × InStream) :=
  match inRead 2 st with
  | some ([b0, b1], st') => some (u16Value o b0 b1, st')
  | _ => none

/-- `InReadOctets(n)` (R59). -/
def inReadOctets (n : Nat) (st : InStream) : Option (List Byte × InStream) := inRead n st

/-- `InSkip(n)` (R60). -/
def inSkip (n : Nat) (st : InStream) : Option InStream := (inRead n st).map Prod.snd

/-! ## Output stream (20_memory.md R61) -/

/-- Append bytes, or `none` when the capacity is less than their number (R61). -/
def outWrite (bs : List Byte) (st : OutStream) : Option OutStream :=
  if bs.length ≤ st.cap then some { data := st.data ++ bs, cap := st.cap - bs.length } else none

/-- `OutWriteU8(v)` (R61). -/
def outWriteU8 (v : Byte) (st : OutStream) : Option OutStream := outWrite [v] st

/-- `OutWriteU16(v)` (R61). -/
def outWriteU16 (o : ByteOrder) (v : Half) (st : OutStream) : Option OutStream := outWrite (u16Bytes o v) st

/-! ## The part/final byte (30_encoding.md R82, 40_writer.md R115) -/

/-- `f << 7` as a byte. -/
def finalBit (f : Bool) : Byte := if f then 0x80#8 else 0x00#8

/-- `PfByte(p, f)` (40_writer.md R115). -/
def pfByte (mode : PartOverflowMode) (p : BitVec 8) (f : Bool) : Byte :=
  match mode with
  | .error => (p &&& 0x7F#8) ||| finalBit f
  | .sourceWrap => p ||| finalBit f

/-- `part = byte & 0x7F` (30_encoding.md R82). -/
def partOf (b : Byte) : PartIndex := (b &&& 0x7F#8).setWidth 7

/-- `isFinal = (byte & 0x80) != 0` (30_encoding.md R82). -/
def isFinalOf (b : Byte) : Bool := b &&& 0x80#8 != 0#8

/-! ## The header (30_encoding.md R85, R86) -/

/-- The four header fields (30_encoding.md R81). -/
structure Header where
  seq  : Half
  part : PartIndex
  fin  : Bool
  len  : Half
deriving DecidableEq, Repr

/-- `EncodeHeader(seq, pf, len)` (R85). -/
def encodeHeader (o : ByteOrder) (seq : Half) (pf : Byte) (len : Half) : List Byte :=
  u16Bytes o seq ++ [pf] ++ u16Bytes o len

/-- `DecodeHeader(b[0..5))` (R86). -/
def decodeHeader (o : ByteOrder) (b0 b1 b2 b3 b4 : Byte) : Header :=
  { seq := u16Value o b0 b1, part := partOf b2, fin := isFinalOf b2, len := u16Value o b3 b4 }

end Sys2Proof.Machine
end

