-- ==== Sys2Proof/Machine/Flags.lean ====
section
/-! DEFINITION. The block's flags `R.recv` and `R.complete` (10_state.md R34): the conditions that read them, what completion
writes, and the mode they spell (R36). No command writes a flag as a side effect of arithmetic. -/

namespace Sys2Proof.Machine

/-- The derived mode of a `Live` Reassembler (10_state.md R36): a reading of the registers, not a register. -/
inductive Mode where
  | idle
  | receiving
  | complete
  | receivingAfterComplete
deriving DecidableEq, Repr

/-- The table of 10_state.md R36. -/
def modeOf (r : Reassembler) : Mode :=
  match r.recv, r.complete with
  | false, false => .idle
  | true, false => .receiving
  | false, true => .complete
  | true, true => .receivingAfterComplete

/-- Step 3's condition: the fragment is not part of the sequence in progress (41_reassembler.md R145). -/
def notInProgress (r : Reassembler) (seq : Half) : Bool := seq != r.expSeq || !r.recv

/-- `R.complete` after an accepted fragment: only a final one writes it (41_reassembler.md R152, 10_state.md R30). -/
def completeAfter (fin : Bool) (r : Reassembler) : Bool := fin || r.complete

/-- `R.recv` after an accepted fragment, from the tentative copy: a final one clears it (41_reassembler.md R152). -/
def recvAfter (fin recv : Bool) : Bool := !fin && recv

end Sys2Proof.Machine
end

