-- ==== Sys2Proof/Machine/Reassembler.lean ====
section
/-! DEFINITION. The Reassembler unit's commands (41_reassembler.md). -/

namespace Sys2Proof.Machine

/-! ## Lifecycle commands -/

/-- `R.INIT` (41_reassembler.md R130). -/
def execRInit (s : State) : Host.Outcome State Fault Refusal :=
  reassemblerCommand
    (fun s =>
      match s.r.life with
      | .live => raiseReassemblerFault .initWhileLive s
      | .uninit | .destroyed =>
        respond .ok 0
          { s with r := { life := .live, expSeq := 0, expPart := 0, recv := false, complete := false, count := 0
                          buf := Memory.allUnknown, fault := s.r.fault } })
    s

/-- The `unknown` registers and cells `R.DESTROY` leaves: free values (41_reassembler.md R133; log 3). -/
def destroyRegisters (s : State) : State :=
  { s with
    r := { life := .destroyed
           expSeq := Config.freeSeq s.draws, expPart := Config.freePart s.draws
           recv := Config.freeRecv s.draws, complete := Config.freeComplete s.draws
           count := Config.freeCount s.draws
           buf := Memory.allUnknown, fault := s.r.fault }
    draws := s.draws + 1 }

/-- `R.DESTROY` (41_reassembler.md R133). -/
def execRDestroy (s : State) : Host.Outcome State Fault Refusal :=
  reassemblerCommand
    (fun s =>
      match s.r.life with
      | .destroyed => raiseReassemblerFault .doubleDestroy s
      | .uninit => raiseReassemblerFault .useBeforeInit s
      | .live => respond .ok 0 (destroyRegisters s))
    s

/-- `R.RESET` (41_reassembler.md R135): `R.expSeq` and the cells stay (D13). -/
def execRReset (s : State) : Host.Outcome State Fault Refusal :=
  reassemblerCommand
    (whenReassemblerLive id fun s =>
      respond .ok 0 { s with r := { s.r with complete := false, recv := false, count := 0, expPart := 0 } })
    s

/-- `R.ISCOMPLETE` (41_reassembler.md R140). -/
def execRIscomplete (s : State) : Host.Outcome State Fault Refusal :=
  reassemblerCommand (whenReassemblerLive id fun s => respond .ok (bitValue s.r.complete) s) s

/-! ## `R.RECEIVE` (41_reassembler.md R142 to R156) -/

/-- The tentative copies `eS`, `eP`, `rv`, `cnt` (10_state.md R43). -/
structure Tentative where
  expSeq  : Half
  expPart : BitVec 8
  recv    : Bool
  count   : Word
deriving DecidableEq, Repr

/-- Step 3 (R145, R146): the tentative copies after it, or `none` when the fragment is ignored there. -/
def startOrContinue (r : Reassembler) (seq : Half) (part : PartIndex) : Option Tentative :=
  if notInProgress r seq then
    if part ≠ 0 then none else some { expSeq := seq, expPart := 0, recv := true, count := 0 }
  else
    some { expSeq := r.expSeq, expPart := r.expPart, recv := r.recv, count := r.count }

/-- Step 4 (R147): the 7-bit part, zero-extended, against the tentative `eP`. -/
def partMatches (part : PartIndex) (t : Tentative) : Bool := part.setWidth 8 == t.expPart

/-- Steps 3 and 4 together: the tentative copies when the fragment goes on to step 5, `none` when it is ignored. -/
def selectFragment (r : Reassembler) (seq : Half) (part : PartIndex) : Option Tentative :=
  (startOrContinue r seq part).filter (partMatches part)

/-- Steps 6 and 7 and the commit (R151, R152): the registers after accepting payload `bs` of length `len`. -/
def commitFragment (t : Tentative) (fin : Bool) (len : Half) (bs : List Byte) (r : Reassembler) : Reassembler :=
  { r with
    expSeq := t.expSeq
    expPart := if fin then 0 else t.expPart + 1
    recv := recvAfter fin t.recv
    complete := completeAfter fin r
    count := t.count + len.setWidth 32
    buf := r.buf.memWrite t.count.toNat bs }

/-- A non-`OK` end: no register changes (R154), `in'.pos` is a draw from the command's start position (20_memory.md R62). -/
def failReceive (st : Status) (s : State) : State := respond st 0 (drawInputPos s)

/-- The ignore path (R148). `in2` is the stream after the three bytes of step 1. -/
def ignoreFragment (in2 : InStream) (s : State) : State :=
  match s.params.ignoreMode with
  | .prefixOnly => respond .ok 0 { s with inp := in2 }
  | .full =>
    match inReadU16 s.params.byteOrder in2 with
    | none => failReceive .streamUnderflow s
    | some (len, in3) =>
      match inSkip len.toNat in3 with
      | none => failReceive .streamUnderflow s
      | some in4 => respond .ok 0 { s with inp := in4 }

/-- Steps 5 to 7 (R149 to R152). `in2` is the stream after the three bytes of step 1. -/
def acceptFragment (t : Tentative) (fin : Bool) (in2 : InStream) (s : State) : State :=
  match inReadU16 s.params.byteOrder in2 with
  | none => failReceive .streamUnderflow s
  | some (len, in3) =>
    if s.params.maxOctetCount.val < t.count.toNat + len.toNat then
      failReceive .capacityExceeded s
    else
      match inReadOctets len.toNat in3 with
      | none =>
        failReceive .streamUnderflow { s with r := { s.r with buf := s.r.buf.forget t.count.toNat len.toNat } }
      | some (bs, in4) => respond .ok 0 { s with r := commitFragment t fin len bs s.r, inp := in4 }

/-- The body of `R.RECEIVE` on a `Live` Reassembler (R142): steps 1 and 2, then the ignore decision of steps 3 and 4. -/
def receive (s : State) : State :=
  match inReadU16 s.params.byteOrder s.inp with
  | none => failReceive .streamUnderflow s
  | some (seq, in1) =>
    match inReadU8 in1 with
    | none => failReceive .streamUnderflow s
    | some (b, in2) =>
      match selectFragment s.r seq (partOf b) with
      | none => ignoreFragment in2 s
      | some t => acceptFragment t (isFinalOf b) in2 s

/-- `R.RECEIVE` (41_reassembler.md R142). A lifecycle fault is a status other than `OK`, so `in'.pos` is a draw there too
(20_memory.md R62; log 6). -/
def execRReceive (s : State) : Host.Outcome State Fault Refusal :=
  reassemblerCommand (whenReassemblerLive drawInputPos receive) s

/-! ## Readout commands -/

/-- `R.RDCOUNT` (41_reassembler.md R160). -/
def execRRdcount (s : State) : Host.Outcome State Fault Refusal :=
  reassemblerCommand (whenReassemblerLive id fun s => respond .ok s.r.count s) s

/-- The body of `R.RDBUF` on a `Live` Reassembler (41_reassembler.md R166). -/
def readBuffer (addr : Word) (s : State) : State :=
  if s.params.maxOctetCount.val ≤ addr.toNat then
    respond .addressOutOfRange 0 s
  else
    respond .ok ((memRead addr.toNat s).1.setWidth 32) (memRead addr.toNat s).2

/-- `R.RDBUF` (41_reassembler.md R166). -/
def execRRdbuf (addr : Word) (s : State) : Host.Outcome State Fault Refusal :=
  reassemblerCommand (whenReassemblerLive id (readBuffer addr)) s

end Sys2Proof.Machine
end

