-- ==== Sys2Proof/Machine/Writer.lean ====
section
/-! DEFINITION. The Writer unit's commands (40_writer.md). -/

namespace Sys2Proof.Machine

/-- `W.INIT` (40_writer.md R110): legal in any lifecycle. -/
def execWInit (s : State) : Host.Outcome State Fault Refusal :=
  writerCommand (fun s => respond .ok 0 { s with w := { s.w with seq := 0, part := 0, life := .live } }) s

/-- `W.ADVSEQ` (40_writer.md R112): the 16-bit sum wraps. -/
def execWAdvseq (s : State) : Host.Outcome State Fault Refusal :=
  writerCommand
    (whenWriterLive fun s => respond .ok 0 { s with w := { s.w with seq := s.w.seq + 1, part := 0 } }) s

/-- The three writes of `W.WRHDR`, each only if the one before it succeeded (40_writer.md R114). -/
def writeHeaderFields (o : ByteOrder) (seq : Half) (pf : Byte) (len : Half) (st : OutStream) : Option OutStream :=
  ((outWriteU16 o seq st).bind (outWriteU8 pf)).bind (outWriteU16 o len)

/-- The body of `W.WRHDR` on a `Live` Writer (40_writer.md R114 to R117). -/
def writeHeader (f : Bool) (len : Half) (s : State) : State :=
  if 128 ≤ s.w.part.toNat ∧ s.params.overflowMode = .error then
    respond .partOverflow 0 s
  else
    let pf := pfByte s.params.overflowMode s.w.part f
    match writeHeaderFields s.params.byteOrder s.w.seq pf len s.out with
    | none => respond .streamOverflow 0 (drawOutputPrefix (encodeHeader s.params.byteOrder s.w.seq pf len) s)
    | some out' => respond .ok 0 { s with w := { s.w with part := s.w.part + 1 }, out := out' }

/-- `W.WRHDR` (40_writer.md R114). -/
def execWWrhdr (f : Bool) (len : Half) (s : State) : Host.Outcome State Fault Refusal :=
  writerCommand (whenWriterLive (writeHeader f len)) s

end Sys2Proof.Machine
end

