-- ==== Sys2Proof/Machine/Dispatch.lean ====
section
/-! DEFINITION. One arm per command: its meaning. -/

namespace Sys2Proof.Machine

def exec (i : Instr) (s : State) : Host.Outcome State Fault Refusal :=
  match i with
  | .wInit => Sys2Proof.Machine.execWInit s
  | .wAdvseq => Sys2Proof.Machine.execWAdvseq s
  | .wWrhdr f len => Sys2Proof.Machine.execWWrhdr f len s
  | .rInit => Sys2Proof.Machine.execRInit s
  | .rDestroy => Sys2Proof.Machine.execRDestroy s
  | .rReset => Sys2Proof.Machine.execRReset s
  | .rIscomplete => Sys2Proof.Machine.execRIscomplete s
  | .rReceive => Sys2Proof.Machine.execRReceive s
  | .rRdcount => Sys2Proof.Machine.execRRdcount s
  | .rRdbuf addr => Sys2Proof.Machine.execRRdbuf addr s

end Sys2Proof.Machine
end

