-- ==== Sys2Proof/Machine/Step.lean ====
section
/-! DEFINITION. One step: the block takes the host's next event, and runs a command to completion (00_scope.md R2,
20_memory.md R67). There is no program counter and no instruction fetch (10_state.md R37, 20_memory.md R68). -/

namespace Sys2Proof.Machine

/-- One step. With nothing to do the state persists (60_exceptions.md R198; log 9); whether a run may end there is
`endOfRun` (R186; log 12). A command whose `in` operand is no operand of 10_state.md R38 is refused by name (log 14). -/
def step (s : State) : Host.Outcome State Fault Refusal :=
  match s.pending with
  | [] => .next s
  | .assertReset :: rest => .next (applyReset { s with pending := rest })
  | .command c :: rest =>
    if c.wf then
      match decode c.word with
      | .ok i => exec i (acceptCommand c rest s)
      | .error _ => .next (answerIllegal (acceptCommand c rest s))
    else .refused .malformedInputOperand

/-- The state in which the host's next event is the command word `w`, with the streams now on the interface as its operands.
There is no program memory: the host's list is where the next command comes from (log 8). -/
def State.withFetchWord (s : State) (nbits w : Nat) : State :=
  { s with pending := .command ⟨tableWord nbits w, s.inp, s.out⟩ :: s.pending }

end Sys2Proof.Machine
end

