-- ==== Sys2Proof/Safety.lean ====
section
/-! DEFINITION. What claims are stated in terms of: the invariants of 10_state.md R35 and of the state's form, which every
step keeps. -/

namespace Sys2Proof.Machine

/-- The form of the buffer: canonical, and no cell outside `[0, MAX_OCTET_COUNT)` (20_memory.md R51). -/
def BufferOk (p : Params) (r : Reassembler) : Prop :=
  r.buf.wf ∧ ∀ c ∈ r.buf, c.1 < p.maxOctetCount.val

/-- The register relations of 10_state.md R35, items 1 to 4. -/
def CountersOk (p : Params) (r : Reassembler) : Prop :=
  r.count.toNat ≤ p.maxOctetCount.val ∧
  r.expPart.toNat ≤ 128 ∧
  (r.recv = false → r.expPart = 0) ∧
  (r.recv = true → 1 ≤ r.expPart.toNat)

/-- Under `ERROR` the largest part counter a `Live` Writer reaches is 128 (10_state.md R24). -/
def PartOk (p : Params) (w : Writer) : Prop :=
  w.life = .live → p.overflowMode = .error → w.part.toNat ≤ 128

/-- The invariant of the machine. -/
structure Inv (s : State) : Prop where
  buffer   : BufferOk s.params s.r
  counters : s.r.life = .live → CountersOk s.params s.r
  part     : PartOk s.params s.w
  stream   : s.inp.wf

/-- A state in which no unit is faulted: no command stops (60_exceptions.md R186). -/
def NotFaulted (s : State) : Prop := s.w.fault = .none ∧ s.r.fault = .none

/-- The cells the payload of the datagram on the interface would be stored to: the first address and the number of bytes, when
the fragment gets as far as reading its length (R142, R150); `none` when it stores nothing. -/
def targetCells (s : State) : Option (Nat × Nat) :=
  match inReadU16 s.params.byteOrder s.inp with
  | none => none
  | some (seq, in1) =>
    match inReadU8 in1 with
    | none => none
    | some (b, in2) =>
      match selectFragment s.r seq (partOf b) with
      | none => none
      | some t => (inReadU16 s.params.byteOrder in2).map fun q => (t.count.toNat, q.1.toNat)

/-! ## Words for claims about commands -/

/-- The commands of the Writer unit (30_encoding.md R94: opcodes 0x01 to 0x0F). All others are the Reassembler's. -/
def isWriterCommand : Instr → Bool
  | .wInit => true
  | .wAdvseq => true
  | .wWrhdr _ _ => true
  | .rInit => false
  | .rDestroy => false
  | .rReset => false
  | .rIscomplete => false
  | .rReceive => false
  | .rRdcount => false
  | .rRdbuf _ => false

/-- The outcome with `f` applied to its next state, if it has one. -/
def mapNext (f : State → State) : Host.Outcome State Fault Refusal → Host.Outcome State Fault Refusal
  | .next s => .next (f s)
  | .fault r => .fault r
  | .refused r => .refused r

/-- `n` steps of the machine. The state after them need not be a final one: `IsFinal` and `runToEnd` say where a run ends. -/
abbrev runSteps (n : Nat) (s : State) : Host.Outcome State Fault Refusal := Host.Core.run Sys2Proof.core n s

/-- A final state of a run: the host has nothing more to issue, and no unit is faulted, since a faulted state is never final
(60_exceptions.md R186; log 12). -/
def IsFinal (s : State) : Prop := s.pending = [] ∧ NotFaulted s

/-- The whole run of what the host has to issue: one step for each event, then the end of the run. It answers a next state
only if the run ends in a final state (60_exceptions.md R186; log 12). -/
def runToEnd (s : State) : Host.Outcome State Fault Refusal :=
  match runSteps s.pending.length s with
  | .next t => endOfRun t
  | .fault r => .fault r
  | .refused r => .refused r

/-- The words 30_encoding.md R96 calls illegal, in its own numbers: an unlisted opcode, or a listed one with a `Z` bit set. -/
def IllegalWord (c : Word) : Prop :=
  let opc := c.toNat / 2 ^ 24
  opc = 0x00 ∨ (0x04 ≤ opc ∧ opc ≤ 0x10) ∨ 0x18 ≤ opc ∨
  ((opc = 0x01 ∨ opc = 0x02 ∨ (0x11 ≤ opc ∧ opc ≤ 0x16)) ∧ c.toNat % 2 ^ 24 ≠ 0) ∨
  (opc = 0x03 ∧ c.toNat / 2 ^ 17 % 2 ^ 7 ≠ 0)

/-- The lifecycle faults of a Reassembler command that reads no stream, and whose check is `check_live()`
(60_exceptions.md R185, R187): `USE_BEFORE_INIT` when `Uninit`, `USE_AFTER_DESTROY` when `Destroyed`. -/
def FaultsUnlessLive (i : Instr) (s : State) : Prop :=
  (s.r.life = .uninit →
    exec i s = .next
      { s with
        r := { s.r with fault := .useBeforeInit }
        responses := ⟨.fault, 1, s.inp, s.out⟩ :: s.responses }) ∧
  (s.r.life = .destroyed →
    exec i s = .next
      { s with
        r := { s.r with fault := .useAfterDestroy }
        responses := ⟨.fault, 2, s.inp, s.out⟩ :: s.responses })

/-! ## Words for claims about `R.RECEIVE` -/

/-- The first three header bytes stand at the read position, carrying `seq`, `part` and `fin`, with `rest` after them
(41_reassembler.md R143, R144). -/
def PrefixAt (s : State) (seq : Half) (part : PartIndex) (fin : Bool) (rest : List Byte) : Prop :=
  ∃ b0 b1 b2, s.inp.data.drop s.inp.pos = b0 :: b1 :: b2 :: rest ∧
    u16Value s.params.byteOrder b0 b1 = seq ∧ partOf b2 = part ∧ isFinalOf b2 = fin

/-- A whole header `h` stands at the read position, with `rest` after it (30_encoding.md R81, R86). -/
def HeaderAt (s : State) (h : Header) (rest : List Byte) : Prop :=
  ∃ b0 b1 b2 b3 b4, s.inp.data.drop s.inp.pos = b0 :: b1 :: b2 :: b3 :: b4 :: rest ∧
    decodeHeader s.params.byteOrder b0 b1 b2 b3 b4 = h

/-- The fragment starts a sequence (41_reassembler.md R145, R146). -/
def Starts (r : Reassembler) (seq : Half) (part : PartIndex) : Prop :=
  (seq ≠ r.expSeq ∨ r.recv = false) ∧ part.toNat = 0

/-- The fragment is the expected part of the sequence in progress (R145, R147). -/
def Continues (r : Reassembler) (seq : Half) (part : PartIndex) : Prop :=
  seq = r.expSeq ∧ r.recv = true ∧ part.toNat = r.expPart.toNat

/-- The fragment is ignored by step 3 or by step 4 (R145, R147). -/
def IsIgnored (r : Reassembler) (seq : Half) (part : PartIndex) : Prop :=
  ((seq ≠ r.expSeq ∨ r.recv = false) ∧ part.toNat ≠ 0) ∨
  (seq = r.expSeq ∧ r.recv = true ∧ part.toNat ≠ r.expPart.toNat)

/-- The fragment goes on to step 5 with `cnt` octets counted so far: 0 for a start (R146), `R.count` otherwise. -/
def SelectedAt (r : Reassembler) (seq : Half) (part : PartIndex) (cnt : Nat) : Prop :=
  (Starts r seq part ∧ cnt = 0) ∨ (Continues r seq part ∧ cnt = r.count.toNat)

/-! ## Words for claims about a whole blob (40_writer.md R118, 41_reassembler.md R157) -/

/-- The headers of the fragments of a blob from part `i` on, the last one final. -/
def blobHeaders (o : ByteOrder) (seq : Half) : Nat → List Half → List (List Byte)
  | _, [] => []
  | i, len :: rest =>
    encodeHeader o seq (BitVec.ofNat 8 (i + if rest.isEmpty then 128 else 0)) len :: blobHeaders o seq (i + 1) rest

/-- The datagrams of a blob cut into slices: each header, then its slice (30_encoding.md R84). -/
def blobDatagrams (o : ByteOrder) (seq : Half) (slices : List (List Byte)) : List (List Byte) :=
  List.zipWith (· ++ ·) (blobHeaders o seq 0 (slices.map fun b => BitVec.ofNat 16 b.length)) slices

/-- One `W.WRHDR` for each payload length, `F` set on the last only, each with a fresh output stream of capacity 5. -/
def headerCommands : List Half → List HostEvent
  | [] => []
  | len :: rest => .command ⟨encode (.wWrhdr rest.isEmpty len), ⟨[], 0⟩, ⟨[], 5⟩⟩ :: headerCommands rest

/-- One `R.RECEIVE` for each datagram, read from its start. -/
def receiveCommands (ds : List (List Byte)) : List HostEvent :=
  ds.map fun d => .command ⟨encode .rReceive, ⟨d, 0⟩, ⟨[], 0⟩⟩

end Sys2Proof.Machine
end

