-- ==== Sys2Proof/Certificates/Slice0/Obligations.lean ====
section
/-! DEFINITION. The statements for the provers, from the rules of spec/. Equations `exec i s = .next …` say an instruction's
result, its frame and that it completes, all at once. -/

open Sys2Proof Sys2Proof.Machine

/-! ## Encodings (30_encoding.md) -/

/-- O1. Every well-formed command, with every operand value, decodes from its word (30_encoding.md, rules of the command word). -/
def Obligations.DecodeEncodeEveryCommand : Prop :=
  ∀ i : Instr, i.wf = true → decode (encode i) = .ok i

/-- O2. Every word that decodes is the word of the command it decodes to, so that a command has one word. -/
def Obligations.EncodeDecodeEveryLegalWord : Prop :=
  ∀ (c : Word) (i : Instr), decode c = .ok i → i.wf = true ∧ encode i = c

/-- O3. Decoding selects the row whose match and mask fit, at most one row fits a word, and a word that fits no row is
illegal. That at most one row fits is the spec's own inference (R95, "derived"). -/
def Obligations.DecodeSelectsTheOneMatchingRow : Prop :=
  ∀ c : Word,
    (∀ row ∈ opcodeRows, row.matches c = true → ∃ i, decode c = .ok i ∧ i.row = row) ∧
    (∀ row ∈ opcodeRows, ∀ row' ∈ opcodeRows, row.matches c = true → row'.matches c = true → row = row') ∧
    ((∀ row ∈ opcodeRows, row.matches c = false) → ∃ e, decode c = .error e)

/-- O4. One word of each row, written out from the command map. -/
def Obligations.WordsOfTheCommandMapDecode : Prop :=
  decode 0x01000000#32 = .ok .wInit ∧
  decode 0x02000000#32 = .ok .wAdvseq ∧
  decode 0x03010002#32 = .ok (.wWrhdr true 2#16) ∧
  decode 0x11000000#32 = .ok .rInit ∧
  decode 0x12000000#32 = .ok .rDestroy ∧
  decode 0x13000000#32 = .ok .rReset ∧
  decode 0x14000000#32 = .ok .rIscomplete ∧
  decode 0x15000000#32 = .ok .rReceive ∧
  decode 0x16000000#32 = .ok .rRdcount ∧
  decode 0x17000009#32 = .ok (.rRdbuf 9#32)

/-- O5. An illegal word is answered with `ILLEGAL_COMMAND`, in every state, those of faulted units too, and changes no
register and no stream (R96). -/
def Obligations.IllegalWordIsAnsweredAndChangesNothing : Prop :=
  ∀ (s : State) (c : Command) (rest : List HostEvent),
    s.pending = .command c :: rest → c.inp.pos ≤ c.inp.data.length → IllegalWord c.word →
    step s = .next
      { s with
        inp := c.inp, out := c.out, pending := rest
        responses := ⟨.illegalCommand, 0, c.inp, c.out⟩ :: s.responses }

/-- O6. The bytes of a header in both byte orders (30_encoding.md R81, R85). -/
def Obligations.EncodedHeaderBytes : Prop :=
  ∀ (seq : Half) (pf : Byte) (len : Half),
    (encodeHeader .big seq pf len).map BitVec.toNat =
      [seq.toNat / 256, seq.toNat % 256, pf.toNat, len.toNat / 256, len.toNat % 256] ∧
    (encodeHeader .little seq pf len).map BitVec.toNat =
      [seq.toNat % 256, seq.toNat / 256, pf.toNat, len.toNat % 256, len.toNat / 256]

/-- O7. The round-trip law of the header, the spec's own inference in R86, with the writer's part/final byte. -/
def Obligations.HeaderDecodesAsEncoded : Prop :=
  ∀ (o : ByteOrder) (seq : Half) (p : BitVec 8) (f : Bool) (len : Half), p.toNat < 128 →
    ∃ b0 b1 b2 b3 b4, encodeHeader o seq (p ||| finalBit f) len = [b0, b1, b2, b3, b4] ∧
      (decodeHeader o b0 b1 b2 b3 b4).seq = seq ∧
      (decodeHeader o b0 b1 b2 b3 b4).part.toNat = p.toNat ∧
      (decodeHeader o b0 b1 b2 b3 b4).fin = f ∧
      (decodeHeader o b0 b1 b2 b3 b4).len = len

/-- O8. `PfByte` in both modes: bits 6:0 are the part's, bit 7 is `f`, or under `SOURCE_WRAP` `p[7] OR f`, so that the modes
agree for `p ≤ 127` (R115). -/
def Obligations.PartFinalByteOfBothModes : Prop :=
  ∀ (p : BitVec 8) (f : Bool),
    (pfByte .error p f).toNat = p.toNat % 128 + (if f = true then 128 else 0) ∧
    (pfByte .sourceWrap p f).toNat = p.toNat % 128 + (if f = true ∨ 128 ≤ p.toNat then 128 else 0)

/-! ## Streams (20_memory.md) -/

/-- O9. The input reads: each succeeds exactly when enough bytes remain, gives the bytes at the position in stream order
(as a 16-bit value in the wire byte order for `InReadU16`), and moves the position past them (R56 to R59). -/
def Obligations.InputReadsSucceedExactlyWhenBytesRemain : Prop :=
  ∀ (o : ByteOrder) (st : InStream) (n : Nat),
    (inReadU8 st = none ↔ st.data.length - st.pos < 1) ∧
    (inReadU16 o st = none ↔ st.data.length - st.pos < 2) ∧
    (inReadOctets n st = none ↔ st.data.length - st.pos < n) ∧
    (∀ b rest, st.data.drop st.pos = b :: rest → inReadU8 st = some (b, ⟨st.data, st.pos + 1⟩)) ∧
    (∀ b0 b1 rest, st.data.drop st.pos = b0 :: b1 :: rest →
      ∃ v : Half, inReadU16 o st = some (v, ⟨st.data, st.pos + 2⟩) ∧
        (o = .big → v.toNat = b0.toNat * 256 + b1.toNat) ∧ (o = .little → v.toNat = b1.toNat * 256 + b0.toNat)) ∧
    (∀ bs rest, st.data.drop st.pos = bs ++ rest → bs.length = n →
      inReadOctets n st = some (bs, ⟨st.data, st.pos + n⟩)) ∧
    inReadOctets 0 st = some ([], st)

/-- O10. The output writes: each succeeds exactly when the capacity suffices, appends its bytes in order and lowers the
capacity by their number (R61). -/
def Obligations.OutputWritesSucceedExactlyWhenTheyFit : Prop :=
  ∀ (o : ByteOrder) (st : OutStream) (b : Byte) (v : Half),
    (1 ≤ st.cap → outWriteU8 b st = some ⟨st.data ++ [b], st.cap - 1⟩) ∧
    (st.cap < 1 → outWriteU8 b st = none) ∧
    (2 ≤ st.cap → ∃ b0 b1 : Byte, outWriteU16 o v st = some ⟨st.data ++ [b0, b1], st.cap - 2⟩ ∧
      (o = .big → b0.toNat = v.toNat / 256 ∧ b1.toNat = v.toNat % 256) ∧
      (o = .little → b0.toNat = v.toNat % 256 ∧ b1.toNat = v.toNat / 256)) ∧
    (st.cap < 2 → outWriteU16 o v st = none)

/-! ## The step and reset -/

/-- O11. A command whose word decodes to `i` runs as `exec i`, with its operands on the interface and the rest of the host's
list still to issue. -/
def Obligations.StepRunsTheDecodedCommand : Prop :=
  ∀ (s : State) (c : Command) (rest : List HostEvent) (i : Instr),
    s.pending = .command c :: rest → c.inp.pos ≤ c.inp.data.length → decode c.word = .ok i →
    step s = exec i { s with inp := c.inp, out := c.out, pending := rest }

/-- O12. With nothing to issue the block's state persists (60_exceptions.md, power states). That the step answers the same
state is the model's choice (log 9); whether a run may end in it is O46. -/
def Obligations.StepWithoutACommandKeepsTheState : Prop :=
  ∀ s : State, s.pending = [] → step s = .next s

/-- O13. The power-on values the spec gives, for every choice of the parameters, at `State.reset` and after the reset input is
asserted; the registers it leaves `unknown` are not mentioned. That the host's streams, its responses and its list stay over an
asserted reset is the model's choice (log 10). -/
def Obligations.PowerOnAndAssertedReset : Prop :=
  (∀ p : Params, State.reset = State.powerOn Config.params ∧
    (State.powerOn p).w.life = .uninit ∧ (State.powerOn p).w.fault = .none ∧
    (State.powerOn p).r.life = .uninit ∧ (State.powerOn p).r.fault = .none ∧
    (∀ a, (State.powerOn p).r.buf.read a = none) ∧ (State.powerOn p).params = p) ∧
  (∀ (s : State) (rest : List HostEvent), s.pending = .assertReset :: rest →
    ∃ t, step s = .next t ∧
      t.w.life = .uninit ∧ t.w.fault = .none ∧ t.r.life = .uninit ∧ t.r.fault = .none ∧
      (∀ a, t.r.buf.read a = none) ∧ t.params = s.params ∧ t.inp = s.inp ∧ t.out = s.out ∧
      t.responses = s.responses ∧ t.pending = rest ∧ t.draws = s.draws)

/-- O14. The numbers of the statuses and of the lifecycle faults (60_exceptions.md R180, R185). -/
def Obligations.StatusAndFaultCodes : Prop :=
  [Status.ok, .streamUnderflow, .streamOverflow, .capacityExceeded, .partOverflow, .illegalCommand, .addressOutOfRange,
    .fault].map Status.code = [0x00#8, 0x01#8, 0x02#8, 0x03#8, 0x04#8, 0x05#8, 0x06#8, 0xFF#8] ∧
  WriterFault.useBeforeInit.code = 1 ∧ ReassemblerFault.useBeforeInit.code = 1 ∧
  ReassemblerFault.useAfterDestroy.code = 2 ∧ ReassemblerFault.doubleDestroy.code = 3 ∧
  ReassemblerFault.initWhileLive.code = 4 ∧
  ∀ st : Status, (st.code.toNat ≤ 6 ∨ st.code.toNat = 0xFF)

/-! ## Writer unit (40_writer.md) -/

/-- O15. `W.INIT` (R110): legal in any lifecycle, a second one too. -/
def Obligations.WInitStartsTheWriter : Prop :=
  decode 0x01000000#32 = .ok .wInit ∧
  ∀ s : State, s.w.fault = .none →
    exec .wInit s = .next
      { s with
        w := { s.w with seq := 0, part := 0, life := .live }
        responses := ⟨.ok, 0, s.inp, s.out⟩ :: s.responses }

/-- O16. `W.ADVSEQ` (R112): the sequence id wraps modulo 2^16, the part counter is cleared whatever it holds; on an
uninitialised Writer the lifecycle fault is taken. -/
def Obligations.WAdvseqAdvancesTheSequence : Prop :=
  decode 0x02000000#32 = .ok .wAdvseq ∧
  ∀ s : State, s.w.fault = .none →
    (s.w.life = .live → ∃ seq' : Half, seq'.toNat = (s.w.seq.toNat + 1) % 2 ^ 16 ∧
      exec .wAdvseq s = .next
        { s with
          w := { s.w with seq := seq', part := 0 }
          responses := ⟨.ok, 0, s.inp, s.out⟩ :: s.responses }) ∧
    (s.w.life = .uninit →
      exec .wAdvseq s = .next
        { s with
          w := { s.w with fault := .useBeforeInit }
          responses := ⟨.fault, 1, s.inp, s.out⟩ :: s.responses })

/-- O17. `W.WRHDR` that fits and does not overflow the part counter: the header is appended, the part counter goes up by one
modulo 256, nothing else changes (R114, R115). -/
def Obligations.WWrhdrAppendsTheHeader : Prop :=
  ∀ (s : State) (f : Bool) (len : Half),
    s.w.fault = .none → s.w.life = .live → 5 ≤ s.out.cap →
    (s.params.overflowMode = .error → s.w.part.toNat < 128) →
    ∃ part' : BitVec 8, part'.toNat = (s.w.part.toNat + 1) % 256 ∧
      exec (.wWrhdr f len) s = .next
        { s with
          w := { s.w with part := part' }
          out := ⟨s.out.data ++ encodeHeader s.params.byteOrder s.w.seq (pfByte s.params.overflowMode s.w.part f) len,
                  s.out.cap - 5⟩
          responses :=
            ⟨.ok, 0, s.inp,
              ⟨s.out.data ++ encodeHeader s.params.byteOrder s.w.seq (pfByte s.params.overflowMode s.w.part f) len,
               s.out.cap - 5⟩⟩ :: s.responses }

/-- O18. `W.WRHDR` at part 128 or more under `ERROR`: `PART_OVERFLOW`, whatever the capacity, and nothing is written; the
Writer stays where it is until `W.ADVSEQ` or `W.INIT` (R116, R190). -/
def Obligations.WWrhdrPartOverflowWritesNothing : Prop :=
  ∀ (s : State) (f : Bool) (len : Half),
    s.w.fault = .none → s.w.life = .live → s.params.overflowMode = .error → 128 ≤ s.w.part.toNat →
    exec (.wWrhdr f len) s = .next { s with responses := ⟨.partOverflow, 0, s.inp, s.out⟩ :: s.responses }

/-- O19. `W.WRHDR` without room for five bytes: `STREAM_OVERFLOW`, no register changes, and some prefix of the header of at
most `min(cap, 4)` bytes stands in the output; its length is a free value (R117, 20_memory.md R62). -/
def Obligations.WWrhdrStreamOverflowKeepsRegisters : Prop :=
  ∀ (s : State) (f : Bool) (len : Half),
    s.w.fault = .none → s.w.life = .live → s.out.cap < 5 →
    (s.params.overflowMode = .error → s.w.part.toNat < 128) →
    ∃ k, k ≤ min s.out.cap 4 ∧
      exec (.wWrhdr f len) s = .next
        { s with
          out :=
            ⟨s.out.data ++
              (encodeHeader s.params.byteOrder s.w.seq (pfByte s.params.overflowMode s.w.part f) len).take k,
             s.out.cap - k⟩
          draws := s.draws + 1
          responses :=
            ⟨.streamOverflow, 0, s.inp,
              ⟨s.out.data ++
                (encodeHeader s.params.byteOrder s.w.seq (pfByte s.params.overflowMode s.w.part f) len).take k,
               s.out.cap - k⟩⟩ :: s.responses }

/-- O20. The headers of one blob (R118, the spec's own inference): `W.ADVSEQ`, then one `W.WRHDR` for each of 1 to 128
fragments, gives headers of one sequence id, parts 0, 1, … in order, final on the last only, and leaves `W.part` at their
number. -/
def Obligations.WriterEmitsTheHeadersOfABlob : Prop :=
  ∀ (s : State) (lens : List Half) (rest : List HostEvent),
    s.w.fault = .none → s.w.life = .live → 1 ≤ lens.length → lens.length ≤ 128 →
    s.pending = .command ⟨encode .wAdvseq, ⟨[], 0⟩, ⟨[], 0⟩⟩ :: (headerCommands lens ++ rest) →
    ∃ t, runSteps (lens.length + 1) s = .next t ∧
      t.w.seq = s.w.seq + 1 ∧ t.w.part.toNat = lens.length ∧ t.w.life = .live ∧ t.w.fault = .none ∧
      t.r = s.r ∧ t.params = s.params ∧ t.pending = rest ∧
      t.responses =
        ((blobHeaders s.params.byteOrder (s.w.seq + 1) 0 lens).map fun h =>
          (⟨.ok, 0, ⟨[], 0⟩, ⟨h, 0⟩⟩ : Response)).reverse ++
        (⟨.ok, 0, ⟨[], 0⟩, ⟨[], 0⟩⟩ : Response) :: s.responses

/-! ## Reassembler unit: lifecycle and readout (41_reassembler.md) -/

/-- O21. `R.INIT` (R130): from `Uninit` or `Destroyed`, every counter 0 and every cell `unknown`; on a `Live` unit the fault is
taken. -/
def Obligations.RInitStartsTheReassembler : Prop :=
  decode 0x11000000#32 = .ok .rInit ∧
  ∀ s : State, s.r.fault = .none →
    (s.r.life ≠ .live → ∃ buf, (∀ a, Memory.read buf a = none) ∧
      exec .rInit s = .next
        { s with
          r := { life := .live, expSeq := 0, expPart := 0, recv := false, complete := false, count := 0
                 buf := buf, fault := .none }
          responses := ⟨.ok, 0, s.inp, s.out⟩ :: s.responses }) ∧
    (s.r.life = .live →
      exec .rInit s = .next
        { s with
          r := { s.r with fault := .initWhileLive }
          responses := ⟨.fault, 4, s.inp, s.out⟩ :: s.responses })

/-- O22. `R.DESTROY` (R133): on a `Live` unit `Destroyed`, every cell `unknown`, the counters free values, nothing else
changed; a second one, or one before `R.INIT`, takes its fault. -/
def Obligations.RDestroyForgetsEverything : Prop :=
  decode 0x12000000#32 = .ok .rDestroy ∧
  ∀ s : State, s.r.fault = .none →
    (s.r.life = .live →
      ∃ expSeq expPart recv complete count buf, (∀ a, Memory.read buf a = none) ∧
        exec .rDestroy s = .next
          { s with
            r := { life := .destroyed, expSeq := expSeq, expPart := expPart, recv := recv, complete := complete
                   count := count, buf := buf, fault := .none }
            draws := s.draws + 1
            responses := ⟨.ok, 0, s.inp, s.out⟩ :: s.responses }) ∧
    (s.r.life = .destroyed →
      exec .rDestroy s = .next
        { s with
          r := { s.r with fault := .doubleDestroy }
          responses := ⟨.fault, 3, s.inp, s.out⟩ :: s.responses }) ∧
    (s.r.life = .uninit →
      exec .rDestroy s = .next
        { s with
          r := { s.r with fault := .useBeforeInit }
          responses := ⟨.fault, 1, s.inp, s.out⟩ :: s.responses })

/-- O23. `R.RESET` (R135): on a `Live` unit, in every mode, four registers are cleared, `R.expSeq` and every cell are kept;
otherwise its fault is taken. -/
def Obligations.RResetClearsTheCounters : Prop :=
  decode 0x13000000#32 = .ok .rReset ∧
  ∀ s : State, s.r.fault = .none →
    (s.r.life = .live →
      exec .rReset s = .next
        { s with
          r := { s.r with complete := false, recv := false, count := 0, expPart := 0 }
          responses := ⟨.ok, 0, s.inp, s.out⟩ :: s.responses }) ∧
    FaultsUnlessLive .rReset s

/-- O24. `R.ISCOMPLETE` (R140): on a `Live` unit the flag, zero-extended, in every mode, and no register changes; otherwise its
fault is taken. -/
def Obligations.RIscompleteAnswersTheFlag : Prop :=
  decode 0x14000000#32 = .ok .rIscomplete ∧
  ∀ s : State, s.r.fault = .none →
    (s.r.life = .live →
      exec .rIscomplete s = .next
        { s with responses := ⟨.ok, if s.r.complete = true then 1 else 0, s.inp, s.out⟩ :: s.responses }) ∧
    FaultsUnlessLive .rIscomplete s

/-- O25. `R.RDCOUNT` (R160): on a `Live` unit the count, in every mode, and no register changes; otherwise its fault is
taken. -/
def Obligations.RRdcountAnswersTheCount : Prop :=
  decode 0x16000000#32 = .ok .rRdcount ∧
  ∀ s : State, s.r.fault = .none →
    (s.r.life = .live →
      exec .rRdcount s = .next { s with responses := ⟨.ok, s.r.count, s.inp, s.out⟩ :: s.responses }) ∧
    FaultsUnlessLive .rRdcount s

/-- O26. `R.RDBUF` (R166): on a `Live` unit a known cell's byte, zero-extended; some byte for an `unknown` cell, which stays
`unknown`; `ADDRESS_OUT_OF_RANGE` at and above the capacity; otherwise its fault is taken. -/
def Obligations.RRdbufReadsOneCell : Prop :=
  (∀ c : Word, c &&& 0xFF000000#32 = 0x17000000#32 → decode c = .ok (.rRdbuf (c &&& 0x00FFFFFF#32))) ∧
  ∀ (s : State) (addr : Word), s.r.fault = .none →
    (s.r.life = .live →
      (s.params.maxOctetCount.val ≤ addr.toNat →
        exec (.rRdbuf addr) s = .next
          { s with responses := ⟨.addressOutOfRange, 0, s.inp, s.out⟩ :: s.responses }) ∧
      (addr.toNat < s.params.maxOctetCount.val →
        (∀ b, s.r.buf.read addr.toNat = some b →
          exec (.rRdbuf addr) s = .next
            { s with responses := ⟨.ok, b.setWidth 32, s.inp, s.out⟩ :: s.responses }) ∧
        (s.r.buf.read addr.toNat = none → ∃ b : Byte,
          exec (.rRdbuf addr) s = .next
            { s with draws := s.draws + 1, responses := ⟨.ok, b.setWidth 32, s.inp, s.out⟩ :: s.responses }))) ∧
    FaultsUnlessLive (.rRdbuf addr) s

/-- O27. Lifecycle faults (60_exceptions.md R185, R187), row by row: the response is `FAULT` with the code, the unit's fault
register is set, no other register changes. Only `R.RECEIVE` leaves `in'.pos` a free value, within its bounds
(20_memory.md R62; that a fault counts among its statuses other than `OK` is log 6). -/
def Obligations.LifecycleFaultsAreTaken : Prop :=
  (∀ (s : State) (i : Instr), s.w.fault = .none → s.w.life = .uninit →
    (i = .wAdvseq ∨ ∃ f len, i = .wWrhdr f len) →
    exec i s = .next
      { s with
        w := { s.w with fault := .useBeforeInit }
        responses := ⟨.fault, 1, s.inp, s.out⟩ :: s.responses }) ∧
  (∀ (s : State) (i : Instr) (f : ReassemblerFault) (code : Word), s.r.fault = .none →
    ((s.r.life = .uninit ∧ isWriterCommand i = false ∧ i ≠ .rInit ∧ f = .useBeforeInit ∧ code = 1) ∨
     (s.r.life = .destroyed ∧ isWriterCommand i = false ∧ i ≠ .rInit ∧ i ≠ .rDestroy ∧ f = .useAfterDestroy ∧ code = 2) ∨
     (s.r.life = .destroyed ∧ i = .rDestroy ∧ f = .doubleDestroy ∧ code = 3) ∨
     (s.r.life = .live ∧ i = .rInit ∧ f = .initWhileLive ∧ code = 4)) →
    ∃ pos draws,
      exec i s = .next
        { s with
          r := { s.r with fault := f }
          inp := ⟨s.inp.data, pos⟩
          draws := draws
          responses := ⟨.fault, code, ⟨s.inp.data, pos⟩, s.out⟩ :: s.responses } ∧
      s.inp.pos ≤ pos ∧ (s.inp.pos ≤ s.inp.data.length → pos ≤ s.inp.data.length) ∧
      (i ≠ .rReceive → pos = s.inp.pos ∧ draws = s.draws))

/-- O28. A faulted unit takes no step, its commands do not clear the fault, and a fault in one unit does not affect what the
other unit's commands do (60_exceptions.md R186). That an illegal word is still answered is O5, and that
no run ends in a faulted state is O46. -/
def Obligations.FaultedUnitTakesNoStep : Prop :=
  ∀ (s : State) (i : Instr),
    (isWriterCommand i = true → s.w.fault ≠ .none → exec i s = .fault .writerFaulted) ∧
    (isWriterCommand i = false → s.r.fault ≠ .none → exec i s = .fault .reassemblerFaulted) ∧
    (isWriterCommand i = true → ∀ f, exec i { s with r := { s.r with fault := f } } =
      mapNext (fun t => { t with r := { t.r with fault := f } }) (exec i s)) ∧
    (isWriterCommand i = false → ∀ f, exec i { s with w := { s.w with fault := f } } =
      mapNext (fun t => { t with w := { t.w with fault := f } }) (exec i s))

/-! ## `R.RECEIVE` (41_reassembler.md R142 to R157) -/

/-- O29. Fewer than three bytes left: `STREAM_UNDERFLOW`, no register or cell changes, `in'.pos` free within its bounds
(R143, R154, 20_memory.md R62). -/
def Obligations.ReceiveOfAShortPrefixUnderflows : Prop :=
  ∀ s : State, s.r.fault = .none → s.r.life = .live → s.inp.pos ≤ s.inp.data.length →
    s.inp.data.length - s.inp.pos < 3 →
    ∃ pos, s.inp.pos ≤ pos ∧ pos ≤ s.inp.data.length ∧
      exec .rReceive s = .next
        { s with
          inp := ⟨s.inp.data, pos⟩, draws := s.draws + 1
          responses := ⟨.streamUnderflow, 0, ⟨s.inp.data, pos⟩, s.out⟩ :: s.responses }

/-- O30. An ignored fragment, under `PREFIX` and under `FULL` (R145, R147, R148): `OK`, no register or cell changes; three
bytes are consumed under `PREFIX`, the header and the declared payload under `FULL`. -/
def Obligations.ReceiveOfAnIgnoredFragmentChangesNoRegister : Prop :=
  ∀ s : State, s.r.fault = .none → s.r.life = .live →
    (∀ seq part fin rest, PrefixAt s seq part fin rest → IsIgnored s.r seq part → s.params.ignoreMode = .prefixOnly →
      exec .rReceive s = .next
        { s with
          inp := ⟨s.inp.data, s.inp.pos + 3⟩
          responses := ⟨.ok, 0, ⟨s.inp.data, s.inp.pos + 3⟩, s.out⟩ :: s.responses }) ∧
    (∀ h rest, HeaderAt s h rest → IsIgnored s.r h.seq h.part → s.params.ignoreMode = .full →
      h.len.toNat ≤ rest.length →
      exec .rReceive s = .next
        { s with
          inp := ⟨s.inp.data, s.inp.pos + 5 + h.len.toNat⟩
          responses := ⟨.ok, 0, ⟨s.inp.data, s.inp.pos + 5 + h.len.toNat⟩, s.out⟩ :: s.responses })

/-- O31. An ignored fragment that is cut short, under `FULL`: its length or its payload is missing, so the command answers
`STREAM_UNDERFLOW` and changes no register and no cell (R148). -/
def Obligations.ReceiveOfATruncatedIgnoredFragmentUnderflows : Prop :=
  ∀ s : State, s.r.fault = .none → s.r.life = .live → s.inp.pos ≤ s.inp.data.length → s.params.ignoreMode = .full →
    ((∃ seq part fin rest, PrefixAt s seq part fin rest ∧ IsIgnored s.r seq part ∧ rest.length < 2) ∨
     (∃ h rest, HeaderAt s h rest ∧ IsIgnored s.r h.seq h.part ∧ rest.length < h.len.toNat)) →
    ∃ pos, s.inp.pos ≤ pos ∧ pos ≤ s.inp.data.length ∧
      exec .rReceive s = .next
        { s with
          inp := ⟨s.inp.data, pos⟩, draws := s.draws + 1
          responses := ⟨.streamUnderflow, 0, ⟨s.inp.data, pos⟩, s.out⟩ :: s.responses }

/-- O32. An accepted fragment, a start or the expected part, final or not, that fits (R145 to R153): every register's new
value, the payload in the cells from `cnt` on and every other cell as before, and the position past the payload. A start does
not clear `R.complete`. -/
def Obligations.ReceiveOfAnAcceptedFragment : Prop :=
  ∀ (s : State) (h : Header) (payload post : List Byte) (cnt : Nat),
    s.r.fault = .none → s.r.life = .live → HeaderAt s h (payload ++ post) → payload.length = h.len.toNat →
    SelectedAt s.r h.seq h.part cnt → cnt + h.len.toNat ≤ s.params.maxOctetCount.val →
    ∃ t, exec .rReceive s = .next t ∧
      t.r.expSeq = h.seq ∧
      t.r.expPart.toNat = (if h.fin = true then 0 else h.part.toNat + 1) ∧
      t.r.recv = !h.fin ∧
      t.r.complete = (h.fin || s.r.complete) ∧
      t.r.count.toNat = cnt + h.len.toNat ∧
      t.r.life = .live ∧ t.r.fault = .none ∧
      (∀ a, t.r.buf.read a = if cnt ≤ a ∧ a < cnt + h.len.toNat then payload[a - cnt]? else s.r.buf.read a) ∧
      t.inp = ⟨s.inp.data, s.inp.pos + 5 + h.len.toNat⟩ ∧
      t.responses = ⟨.ok, 0, t.inp, s.out⟩ :: s.responses ∧
      t.w = s.w ∧ t.params = s.params ∧ t.out = s.out ∧ t.pending = s.pending ∧ t.draws = s.draws

/-- O33. A selected fragment whose payload would pass the capacity (R150, R183): `CAPACITY_EXCEEDED`, whether or not the payload
bytes are there, and no register and no cell changes, so that the sequence in progress survives. -/
def Obligations.ReceiveBeyondCapacityChangesNoRegisterOrCell : Prop :=
  ∀ (s : State) (h : Header) (rest : List Byte) (cnt : Nat),
    s.r.fault = .none → s.r.life = .live → s.inp.pos ≤ s.inp.data.length → HeaderAt s h rest →
    SelectedAt s.r h.seq h.part cnt → s.params.maxOctetCount.val < cnt + h.len.toNat →
    ∃ pos, s.inp.pos ≤ pos ∧ pos ≤ s.inp.data.length ∧
      exec .rReceive s = .next
        { s with
          inp := ⟨s.inp.data, pos⟩, draws := s.draws + 1
          responses := ⟨.capacityExceeded, 0, ⟨s.inp.data, pos⟩, s.out⟩ :: s.responses }

/-- O34. A selected fragment cut short (R149, R150, R154): without a length no register or cell changes; with a length that
fits and a payload that is missing bytes, the cells from `cnt` on become `unknown`, every other cell and every register
stays. -/
def Obligations.ReceiveOfATruncatedSelectedFragmentUnderflows : Prop :=
  ∀ s : State, s.r.fault = .none → s.r.life = .live → s.inp.pos ≤ s.inp.data.length →
    (∀ seq part fin rest cnt, PrefixAt s seq part fin rest → SelectedAt s.r seq part cnt → rest.length < 2 →
      ∃ pos, s.inp.pos ≤ pos ∧ pos ≤ s.inp.data.length ∧
        exec .rReceive s = .next
          { s with
            inp := ⟨s.inp.data, pos⟩, draws := s.draws + 1
            responses := ⟨.streamUnderflow, 0, ⟨s.inp.data, pos⟩, s.out⟩ :: s.responses }) ∧
    (∀ h rest cnt, HeaderAt s h rest → SelectedAt s.r h.seq h.part cnt →
      cnt + h.len.toNat ≤ s.params.maxOctetCount.val → rest.length < h.len.toNat →
      ∃ pos buf, s.inp.pos ≤ pos ∧ pos ≤ s.inp.data.length ∧
        (∀ a, Memory.read buf a = if cnt ≤ a ∧ a < cnt + h.len.toNat then none else s.r.buf.read a) ∧
        exec .rReceive s = .next
          { s with
            r := { s.r with buf := buf }
            inp := ⟨s.inp.data, pos⟩, draws := s.draws + 1
            responses := ⟨.streamUnderflow, 0, ⟨s.inp.data, pos⟩, s.out⟩ :: s.responses })

/-- O35. A failed receive keeps every register of the Reassembler (R154): whatever `R.RECEIVE` answers with
`STREAM_UNDERFLOW` or `CAPACITY_EXCEEDED`, only cells of the payload's target range can change, and they become `unknown`. -/
def Obligations.FailedReceiveKeepsEveryRegister : Prop :=
  ∀ (s t : State) (rsp : Response), exec .rReceive s = .next t → t.responses = rsp :: s.responses →
    (rsp.status = .streamUnderflow ∨ rsp.status = .capacityExceeded) →
    t.r.expSeq = s.r.expSeq ∧ t.r.expPart = s.r.expPart ∧ t.r.recv = s.r.recv ∧ t.r.complete = s.r.complete ∧
    t.r.count = s.r.count ∧ t.r.life = s.r.life ∧ t.r.fault = s.r.fault ∧ t.w = s.w ∧ rsp.value = 0 ∧
    (rsp.status = .capacityExceeded → t.r.buf = s.r.buf) ∧
    ∀ a, t.r.buf.read a = s.r.buf.read a ∨
      (t.r.buf.read a = none ∧ ∃ x n, targetCells s = some (x, n) ∧ x ≤ a ∧ a < x + n)

/-- O36. Which commands reach the cells (20_memory.md R50, 10_state.md R32): outside the target range that the command's own
header gives, `R.RECEIVE` leaves every cell as it reads, and every command but `R.RECEIVE`, `R.INIT` and `R.DESTROY` leaves
the whole buffer. -/
def Obligations.CellsOutsideTheTargetRangeAreKept : Prop :=
  ∀ (s t : State) (i : Instr), exec i s = .next t →
    (i = .rReceive → ∀ a, (∀ x n, targetCells s = some (x, n) → a < x ∨ x + n ≤ a) →
      t.r.buf.read a = s.r.buf.read a) ∧
    (i ≠ .rReceive → i ≠ .rInit → i ≠ .rDestroy → t.r.buf = s.r.buf)

/-- O37. The round trip of R157 (the spec's own inference): the datagrams of a blob cut into 1 to 128 slices, fed in order to a
Reassembler that is not receiving that sequence, are all answered `OK`, and leave the blob in the cells `[0, N)` with
`R.count = N` and `R.complete = 1`. -/
def Obligations.BlobSurvivesTheRoundTrip : Prop :=
  ∀ (s : State) (seq : Half) (slices : List (List Byte)) (rest : List HostEvent),
    s.r.fault = .none → s.r.life = .live → (seq ≠ s.r.expSeq ∨ s.r.recv = false) →
    1 ≤ slices.length → slices.length ≤ 128 → (∀ b ∈ slices, b.length < 2 ^ 16) →
    slices.flatten.length ≤ s.params.maxOctetCount.val →
    s.pending = receiveCommands (blobDatagrams s.params.byteOrder seq slices) ++ rest →
    ∃ t, runSteps slices.length s = .next t ∧
      t.r.complete = true ∧ t.r.recv = false ∧ t.r.expPart = 0 ∧ t.r.expSeq = seq ∧
      t.r.count.toNat = slices.flatten.length ∧ t.r.life = .live ∧ t.r.fault = .none ∧
      (∀ a, a < slices.flatten.length → t.r.buf.read a = slices.flatten[a]?) ∧
      t.w = s.w ∧ t.params = s.params ∧ t.pending = rest ∧
      t.responses =
        ((blobDatagrams s.params.byteOrder seq slices).map fun d =>
          (⟨.ok, 0, ⟨d, d.length⟩, ⟨[], 0⟩⟩ : Response)).reverse ++ s.responses

/-! ## The whole machine -/

/-- O38. The invariant holds at reset. It speaks of the counters only while the Reassembler is `Live`, so it rests on no reset
value of the model's choice but the empty operand streams (log 8). -/
def Obligations.ResetMeetsTheInvariant : Prop :=
  Inv State.reset ∧ ∀ p : Params, Inv (State.powerOn p)

/-- O39. Every step keeps the invariant: the canonical buffer within its capacity, the relations of 10_state.md R35 (the
spec's own inference), the bound of `W.part` under `ERROR`, and a position within the input data. -/
def Obligations.StepKeepsTheInvariant : Prop :=
  ∀ s t : State, Inv s → step s = .next t → Inv t

/-- O40. The units share nothing (10_state.md R20): a command of one unit neither reads nor writes the other's registers. -/
def Obligations.UnitsShareNoState : Prop :=
  ∀ (s : State) (i : Instr),
    (isWriterCommand i = true → ∀ r', exec i { s with r := r' } = mapNext (fun t => { t with r := r' }) (exec i s)) ∧
    (isWriterCommand i = false → ∀ w', exec i { s with w := w' } = mapNext (fun t => { t with w := w' }) (exec i s))

/-- O41. Parameters are fixed (10_state.md R21), and a sticky fault stays until the reset input is asserted
(10_state.md R25, R33). -/
def Obligations.ParametersAndFaultsStay : Prop :=
  ∀ s t : State, step s = .next t →
    t.params = s.params ∧
    ((∀ rest, s.pending ≠ .assertReset :: rest) →
      (s.w.fault ≠ .none → t.w.fault = s.w.fault) ∧ (s.r.fault ≠ .none → t.r.fault = s.r.fault))

/-- O42. What writes `R.complete` (10_state.md R30): over one step it changes only by an asserted reset, by `R.INIT` or
`R.RESET`, which clear it, by `R.DESTROY`, or by a `R.RECEIVE` that sets it and is answered `OK`. -/
def Obligations.CompleteChangesOnlyByItsWriters : Prop :=
  ∀ s t : State, step s = .next t → t.r.complete ≠ s.r.complete →
    (∃ rest, s.pending = .assertReset :: rest) ∨
    (∃ c rest, s.pending = .command c :: rest ∧
      ((decode c.word = .ok .rInit ∧ t.r.complete = false) ∨
       (decode c.word = .ok .rReset ∧ t.r.complete = false) ∨
       decode c.word = .ok .rDestroy ∨
       (decode c.word = .ok .rReceive ∧ t.r.complete = true ∧ t.r.recv = false ∧ t.r.expPart = 0 ∧
         ∃ rsp, t.responses = rsp :: s.responses ∧ rsp.status = .ok)))

/-- O43. `PART_OVERFLOW`, `ILLEGAL_COMMAND` and `ADDRESS_OUT_OF_RANGE` write nothing (60_exceptions.md R184): after a command
answered so, only the command's own place in the host's list and its response have moved on, so nothing of the status
outlasts it. -/
def Obligations.RejectingStatusesWriteNothing : Prop :=
  ∀ (s t : State) (c : Command) (rest : List HostEvent) (rsp : Response),
    s.pending = .command c :: rest → step s = .next t → t.responses = rsp :: s.responses →
    (rsp.status = .partOverflow ∨ rsp.status = .illegalCommand ∨ rsp.status = .addressOutOfRange) →
    rsp.value = 0 ∧ rsp.inp = c.inp ∧ rsp.out = c.out ∧
    t = { s with inp := c.inp, out := c.out, pending := rest, responses := rsp :: s.responses }

/-- O44. Every command that takes a step gives exactly one response, and leaves the rest of the host's list alone
(10_state.md R38, 60_exceptions.md R190). -/
def Obligations.EachCommandGivesOneResponse : Prop :=
  ∀ (s t : State) (c : Command) (rest : List HostEvent),
    s.pending = .command c :: rest → step s = .next t →
    t.pending = rest ∧ ∃ rsp, t.responses = rsp :: s.responses ∧ rsp.inp = t.inp ∧ rsp.out = t.out ∧
      rsp.inp.data = c.inp.data ∧ (rsp.status ≠ .ok → rsp.status ≠ .fault → rsp.value = 0)

/-- O45. The derived mode (10_state.md R36): the four readings of `R.recv` and `R.complete`. -/
def Obligations.ModeReadsTheTwoFlags : Prop :=
  ∀ r : Reassembler,
    (modeOf r = .idle ↔ r.recv = false ∧ r.complete = false) ∧
    (modeOf r = .receiving ↔ r.recv = true ∧ r.complete = false) ∧
    (modeOf r = .complete ↔ r.recv = false ∧ r.complete = true) ∧
    (modeOf r = .receivingAfterComplete ↔ r.recv = true ∧ r.complete = true)

/-- O46. A faulted state is never a final state of a run (60_exceptions.md R186). A whole run ends only with the host's list
used up and no unit faulted, and whichever way a final state is reached, the whole run ends in it; with the list used up, a
state in which a unit is faulted is no end but a stop, named after the unit (the stop is the model's reading, log 12). Once a
unit is faulted, and while no reset is asserted, no final state is reached, whatever the other unit does. -/
def Obligations.FaultedStateIsNeverFinal : Prop :=
  (∀ s t : State, runToEnd s = .next t →
    runSteps s.pending.length s = .next t ∧ t.pending = [] ∧ t.w.fault = .none ∧ t.r.fault = .none) ∧
  (∀ (s t : State) (n : Nat), runSteps n s = .next t → IsFinal t → runToEnd s = .next t) ∧
  (∀ s : State, s.pending = [] →
    (s.w.fault ≠ .none → runToEnd s = .fault .writerFaulted) ∧
    (s.w.fault = .none → s.r.fault ≠ .none → runToEnd s = .fault .reassemblerFaulted)) ∧
  (∀ s : State, s.w.fault ≠ .none ∨ s.r.fault ≠ .none → HostEvent.assertReset ∉ s.pending →
    ∀ t, runToEnd s ≠ .next t ∧ ∀ n, runSteps n s = .next t → ¬ IsFinal t)
end

