-- ==== Sys2Proof/Laws/State.lean ====
section
/-! SUPPORT. What each update of State leaves in each field, one lemma per field per update, so that no later proof unfolds a
record update. -/

namespace Sys2Proof.Machine

section Updates

variable (s : State)

@[simp] theorem respond_params (st : Status) (v : Word) : (respond st v s).params = s.params := rfl
@[simp] theorem respond_w (st : Status) (v : Word) : (respond st v s).w = s.w := rfl
@[simp] theorem respond_r (st : Status) (v : Word) : (respond st v s).r = s.r := rfl
@[simp] theorem respond_inp (st : Status) (v : Word) : (respond st v s).inp = s.inp := rfl
@[simp] theorem respond_out (st : Status) (v : Word) : (respond st v s).out = s.out := rfl
@[simp] theorem respond_responses (st : Status) (v : Word) : (respond st v s).responses = ⟨st, v, s.inp, s.out⟩ :: s.responses := rfl
@[simp] theorem respond_pending (st : Status) (v : Word) : (respond st v s).pending = s.pending := rfl
@[simp] theorem respond_draws (st : Status) (v : Word) : (respond st v s).draws = s.draws := rfl

@[simp] theorem drawInputPos_params : (drawInputPos s).params = s.params := rfl
@[simp] theorem drawInputPos_w : (drawInputPos s).w = s.w := rfl
@[simp] theorem drawInputPos_r : (drawInputPos s).r = s.r := rfl
@[simp] theorem drawInputPos_inp : (drawInputPos s).inp = ⟨s.inp.data, s.inp.pos + Config.freeNat s.draws % (s.inp.data.length - s.inp.pos + 1)⟩ := rfl
@[simp] theorem drawInputPos_out : (drawInputPos s).out = s.out := rfl
@[simp] theorem drawInputPos_responses : (drawInputPos s).responses = s.responses := rfl
@[simp] theorem drawInputPos_pending : (drawInputPos s).pending = s.pending := rfl
@[simp] theorem drawInputPos_draws : (drawInputPos s).draws = s.draws + 1 := rfl

@[simp] theorem drawOutputPrefix_params (h : List Byte) : (drawOutputPrefix h s).params = s.params := rfl
@[simp] theorem drawOutputPrefix_w (h : List Byte) : (drawOutputPrefix h s).w = s.w := rfl
@[simp] theorem drawOutputPrefix_r (h : List Byte) : (drawOutputPrefix h s).r = s.r := rfl
@[simp] theorem drawOutputPrefix_inp (h : List Byte) : (drawOutputPrefix h s).inp = s.inp := rfl
@[simp] theorem drawOutputPrefix_out (h : List Byte) : (drawOutputPrefix h s).out = 
      ⟨s.out.data ++ h.take (Config.freeNat s.draws % (min s.out.cap 4 + 1)),
       s.out.cap - Config.freeNat s.draws % (min s.out.cap 4 + 1)⟩ := rfl
@[simp] theorem drawOutputPrefix_responses (h : List Byte) : (drawOutputPrefix h s).responses = s.responses := rfl
@[simp] theorem drawOutputPrefix_pending (h : List Byte) : (drawOutputPrefix h s).pending = s.pending := rfl
@[simp] theorem drawOutputPrefix_draws (h : List Byte) : (drawOutputPrefix h s).draws = s.draws + 1 := rfl

@[simp] theorem raiseWriterFault_params (f : WriterFault) : (raiseWriterFault f s).params = s.params := rfl
@[simp] theorem raiseWriterFault_w (f : WriterFault) : (raiseWriterFault f s).w = { s.w with fault := f } := rfl
@[simp] theorem raiseWriterFault_r (f : WriterFault) : (raiseWriterFault f s).r = s.r := rfl
@[simp] theorem raiseWriterFault_inp (f : WriterFault) : (raiseWriterFault f s).inp = s.inp := rfl
@[simp] theorem raiseWriterFault_out (f : WriterFault) : (raiseWriterFault f s).out = s.out := rfl
@[simp] theorem raiseWriterFault_responses (f : WriterFault) : (raiseWriterFault f s).responses = ⟨.fault, f.code, s.inp, s.out⟩ :: s.responses := rfl
@[simp] theorem raiseWriterFault_pending (f : WriterFault) : (raiseWriterFault f s).pending = s.pending := rfl
@[simp] theorem raiseWriterFault_draws (f : WriterFault) : (raiseWriterFault f s).draws = s.draws := rfl

@[simp] theorem raiseReassemblerFault_params (f : ReassemblerFault) : (raiseReassemblerFault f s).params = s.params := rfl
@[simp] theorem raiseReassemblerFault_w (f : ReassemblerFault) : (raiseReassemblerFault f s).w = s.w := rfl
@[simp] theorem raiseReassemblerFault_r (f : ReassemblerFault) : (raiseReassemblerFault f s).r = { s.r with fault := f } := rfl
@[simp] theorem raiseReassemblerFault_inp (f : ReassemblerFault) : (raiseReassemblerFault f s).inp = s.inp := rfl
@[simp] theorem raiseReassemblerFault_out (f : ReassemblerFault) : (raiseReassemblerFault f s).out = s.out := rfl
@[simp] theorem raiseReassemblerFault_responses (f : ReassemblerFault) : (raiseReassemblerFault f s).responses = ⟨.fault, f.code, s.inp, s.out⟩ :: s.responses := rfl
@[simp] theorem raiseReassemblerFault_pending (f : ReassemblerFault) : (raiseReassemblerFault f s).pending = s.pending := rfl
@[simp] theorem raiseReassemblerFault_draws (f : ReassemblerFault) : (raiseReassemblerFault f s).draws = s.draws := rfl

@[simp] theorem failReceive_params (st : Status) : (failReceive st s).params = s.params := rfl
@[simp] theorem failReceive_w (st : Status) : (failReceive st s).w = s.w := rfl
@[simp] theorem failReceive_r (st : Status) : (failReceive st s).r = s.r := rfl
@[simp] theorem failReceive_inp (st : Status) : (failReceive st s).inp = (drawInputPos s).inp := rfl
@[simp] theorem failReceive_out (st : Status) : (failReceive st s).out = s.out := rfl
@[simp] theorem failReceive_responses (st : Status) : (failReceive st s).responses = ⟨st, 0, (drawInputPos s).inp, s.out⟩ :: s.responses := rfl
@[simp] theorem failReceive_pending (st : Status) : (failReceive st s).pending = s.pending := rfl
@[simp] theorem failReceive_draws (st : Status) : (failReceive st s).draws = s.draws + 1 := rfl

@[simp] theorem destroyRegisters_params : (destroyRegisters s).params = s.params := rfl
@[simp] theorem destroyRegisters_w : (destroyRegisters s).w = s.w := rfl
@[simp] theorem destroyRegisters_r : (destroyRegisters s).r = 
      ⟨.destroyed, Config.freeSeq s.draws, Config.freePart s.draws, Config.freeRecv s.draws, Config.freeComplete s.draws,
       Config.freeCount s.draws, [], s.r.fault⟩ := rfl
@[simp] theorem destroyRegisters_inp : (destroyRegisters s).inp = s.inp := rfl
@[simp] theorem destroyRegisters_out : (destroyRegisters s).out = s.out := rfl
@[simp] theorem destroyRegisters_responses : (destroyRegisters s).responses = s.responses := rfl
@[simp] theorem destroyRegisters_pending : (destroyRegisters s).pending = s.pending := rfl
@[simp] theorem destroyRegisters_draws : (destroyRegisters s).draws = s.draws + 1 := rfl

@[simp] theorem acceptCommand_params (c : Command) (rest : List HostEvent) : (acceptCommand c rest s).params = s.params := rfl
@[simp] theorem acceptCommand_w (c : Command) (rest : List HostEvent) : (acceptCommand c rest s).w = s.w := rfl
@[simp] theorem acceptCommand_r (c : Command) (rest : List HostEvent) : (acceptCommand c rest s).r = s.r := rfl
@[simp] theorem acceptCommand_inp (c : Command) (rest : List HostEvent) : (acceptCommand c rest s).inp = c.inp := rfl
@[simp] theorem acceptCommand_out (c : Command) (rest : List HostEvent) : (acceptCommand c rest s).out = c.out := rfl
@[simp] theorem acceptCommand_responses (c : Command) (rest : List HostEvent) : (acceptCommand c rest s).responses = s.responses := rfl
@[simp] theorem acceptCommand_pending (c : Command) (rest : List HostEvent) : (acceptCommand c rest s).pending = rest := rfl
@[simp] theorem acceptCommand_draws (c : Command) (rest : List HostEvent) : (acceptCommand c rest s).draws = s.draws := rfl

@[simp] theorem answerIllegal_params : (answerIllegal s).params = s.params := rfl
@[simp] theorem answerIllegal_w : (answerIllegal s).w = s.w := rfl
@[simp] theorem answerIllegal_r : (answerIllegal s).r = s.r := rfl
@[simp] theorem answerIllegal_inp : (answerIllegal s).inp = s.inp := rfl
@[simp] theorem answerIllegal_out : (answerIllegal s).out = s.out := rfl
@[simp] theorem answerIllegal_responses : (answerIllegal s).responses = ⟨.illegalCommand, 0, s.inp, s.out⟩ :: s.responses := rfl
@[simp] theorem answerIllegal_pending : (answerIllegal s).pending = s.pending := rfl
@[simp] theorem answerIllegal_draws : (answerIllegal s).draws = s.draws := rfl

@[simp] theorem applyReset_params : (applyReset s).params = s.params := rfl
@[simp] theorem applyReset_w : (applyReset s).w = .powerOn := rfl
@[simp] theorem applyReset_r : (applyReset s).r = .powerOn := rfl
@[simp] theorem applyReset_inp : (applyReset s).inp = s.inp := rfl
@[simp] theorem applyReset_out : (applyReset s).out = s.out := rfl
@[simp] theorem applyReset_responses : (applyReset s).responses = s.responses := rfl
@[simp] theorem applyReset_pending : (applyReset s).pending = s.pending := rfl
@[simp] theorem applyReset_draws : (applyReset s).draws = s.draws := rfl

@[simp] theorem withFetchWord_params (nbits w : Nat) : (s.withFetchWord nbits w).params = s.params := rfl
@[simp] theorem withFetchWord_w (nbits w : Nat) : (s.withFetchWord nbits w).w = s.w := rfl
@[simp] theorem withFetchWord_r (nbits w : Nat) : (s.withFetchWord nbits w).r = s.r := rfl
@[simp] theorem withFetchWord_inp (nbits w : Nat) : (s.withFetchWord nbits w).inp = s.inp := rfl
@[simp] theorem withFetchWord_out (nbits w : Nat) : (s.withFetchWord nbits w).out = s.out := rfl
@[simp] theorem withFetchWord_responses (nbits w : Nat) : (s.withFetchWord nbits w).responses = s.responses := rfl
@[simp] theorem withFetchWord_pending (nbits w : Nat) : (s.withFetchWord nbits w).pending = 
      .command ⟨tableWord nbits w, s.inp, s.out⟩ :: s.pending := rfl
@[simp] theorem withFetchWord_draws (nbits w : Nat) : (s.withFetchWord nbits w).draws = s.draws := rfl

end Updates

/-! ## Registers after a commit (41_reassembler.md R151, R152) -/

section Commit

variable (t : Tentative) (fin : Bool) (len : Half) (bs : List Byte) (r : Reassembler)

@[simp] theorem commitFragment_life : (commitFragment t fin len bs r).life = r.life := rfl
@[simp] theorem commitFragment_expSeq : (commitFragment t fin len bs r).expSeq = t.expSeq := rfl
@[simp] theorem commitFragment_expPart : (commitFragment t fin len bs r).expPart = if fin then 0 else t.expPart + 1 := rfl
@[simp] theorem commitFragment_recv : (commitFragment t fin len bs r).recv = recvAfter fin t.recv := rfl
@[simp] theorem commitFragment_complete : (commitFragment t fin len bs r).complete = completeAfter fin r := rfl
@[simp] theorem commitFragment_count : (commitFragment t fin len bs r).count = t.count + len.setWidth 32 := rfl
@[simp] theorem commitFragment_buf : (commitFragment t fin len bs r).buf = r.buf.memWrite t.count.toNat bs := rfl
@[simp] theorem commitFragment_fault : (commitFragment t fin len bs r).fault = r.fault := rfl

end Commit

/-! ## The power-on state (70_reset_and_hazards.md R210) -/

@[simp] theorem powerOn_params (p : Params) : (State.powerOn p).params = p := rfl
@[simp] theorem powerOn_w (p : Params) : (State.powerOn p).w = .powerOn := rfl
@[simp] theorem powerOn_r (p : Params) : (State.powerOn p).r = .powerOn := rfl
@[simp] theorem writer_powerOn_life : Writer.powerOn.life = .uninit := rfl
@[simp] theorem writer_powerOn_fault : Writer.powerOn.fault = .none := rfl
@[simp] theorem reassembler_powerOn_life : Reassembler.powerOn.life = .uninit := rfl
@[simp] theorem reassembler_powerOn_fault : Reassembler.powerOn.fault = .none := rfl
@[simp] theorem reassembler_powerOn_buf : Reassembler.powerOn.buf = [] := rfl

end Sys2Proof.Machine
end

