-- ==== Sys2Proof/Laws/Buffer.lean ====
section
/-! SUPPORT. The buffer: every operation keeps the canonical form and the address bound, and what a cell reads as after it
(00_scope.md R14, 10_state.md R32, 20_memory.md R55). -/

namespace Sys2Proof.Machine

/-! ## Reading -/

@[simp] theorem read_nil (a : Nat) : Memory.read [] a = none := rfl

theorem read_cons (x : Nat) (b : Byte) (m : Memory) (a : Nat) :
    Memory.read ((x, b) :: m) a = if x = a then some b else Memory.read m a := rfl

theorem read_append (m m' : Memory) (a : Nat) :
    Memory.read (m ++ m') a = (Memory.read m a).or (Memory.read m' a) := by
  induction m with
  | nil => simp
  | cons c m ih =>
    obtain ⟨x, b⟩ := c
    simp only [List.cons_append, read_cons, ih]
    split <;> simp

theorem read_filter (p : Nat → Bool) (m : Memory) (a : Nat) :
    Memory.read (m.filter fun c => p c.1) a = if p a then Memory.read m a else none := by
  induction m with
  | nil => simp
  | cons c m ih =>
    obtain ⟨x, b⟩ := c
    by_cases hx : p x <;> by_cases ha : x = a <;> simp_all [read_cons]

@[simp] theorem read_below (m : Memory) (x a : Nat) :
    (m.below x).read a = if a < x then m.read a else none := by
  simpa [Memory.below] using read_filter (fun k => decide (k < x)) m a

@[simp] theorem read_fromAddr (m : Memory) (x a : Nat) :
    (m.fromAddr x).read a = if x ≤ a then m.read a else none := by
  simpa [Memory.fromAddr] using read_filter (fun k => decide (x ≤ k)) m a

@[simp] theorem read_cellsFrom (x : Nat) (bs : List Byte) (a : Nat) :
    (Memory.cellsFrom x bs).read a = if x ≤ a then bs[a - x]? else none := by
  induction bs generalizing x with
  | nil => simp [Memory.cellsFrom]
  | cons b bs ih =>
    simp only [Memory.cellsFrom, read_cons, ih]
    rcases lt_trichotomy x a with h | h | h
    · have : a - x = (a - (x + 1)) + 1 := by omega
      simp [h.ne, h.le, Nat.succ_le_of_lt h, this]
    · simp [h]
    · simp [h.ne', Nat.not_le_of_lt h, show ¬ x + 1 ≤ a by omega]

/-- A stored byte reads back, and every cell outside the stored range reads as before (20_memory.md R55). -/
theorem read_memWrite (m : Memory) (x : Nat) (bs : List Byte) (a : Nat) :
    (m.memWrite x bs).read a = if x ≤ a ∧ a < x + bs.length then bs[a - x]? else m.read a := by
  simp only [Memory.memWrite, read_append, read_below, read_cellsFrom, read_fromAddr]
  by_cases h1 : a < x
  · simp [h1, Nat.not_le_of_lt h1, show ¬ x + bs.length ≤ a by omega]
  · by_cases h2 : a < x + bs.length
    · have : a - x < bs.length := by omega
      simp [h1, Nat.le_of_not_lt h1, h2, this]
    · simp [h1, Nat.le_of_not_lt h1, h2, Nat.le_of_not_lt h2, show bs.length ≤ a - x by omega]

/-- A forgotten cell is `unknown`, and every other cell reads as before (41_reassembler.md R150). -/
theorem read_forget (m : Memory) (x n a : Nat) :
    (m.forget x n).read a = if x ≤ a ∧ a < x + n then none else m.read a := by
  simp only [Memory.forget, read_append, read_below, read_fromAddr]
  by_cases h1 : a < x
  · simp [h1, Nat.not_le_of_lt h1, show ¬ x + n ≤ a by omega]
  · by_cases h2 : a < x + n
    · simp [h1, Nat.le_of_not_lt h1, h2]
    · simp [h1, h2, Nat.le_of_not_lt h2]

/-! ## The canonical form -/

theorem mem_below {m : Memory} {x : Nat} {c : Host.Cell} : c ∈ m.below x ↔ c ∈ m ∧ c.1 < x := by
  simp [Memory.below]

theorem mem_fromAddr {m : Memory} {x : Nat} {c : Host.Cell} : c ∈ m.fromAddr x ↔ c ∈ m ∧ x ≤ c.1 := by
  simp [Memory.fromAddr]

theorem mem_cellsFrom {x : Nat} {bs : List Byte} {c : Host.Cell} (h : c ∈ Memory.cellsFrom x bs) :
    x ≤ c.1 ∧ c.1 < x + bs.length := by
  induction bs generalizing x with
  | nil => simp [Memory.cellsFrom] at h
  | cons b bs ih =>
    rcases List.mem_cons.1 h with rfl | h
    · simp
    · have := ih h
      simp only [List.length_cons]
      omega

theorem wf_cellsFrom (x : Nat) (bs : List Byte) : (Memory.cellsFrom x bs).wf := by
  induction bs generalizing x with
  | nil => exact List.Pairwise.nil
  | cons b bs ih =>
    refine List.Pairwise.cons (fun c hc => ?_) (ih (x + 1))
    have := mem_cellsFrom hc
    dsimp only
    omega

theorem wf_below {m : Memory} (h : m.wf) (x : Nat) : (m.below x).wf := List.Pairwise.filter _ h

theorem wf_fromAddr {m : Memory} (h : m.wf) (x : Nat) : (m.fromAddr x).wf := List.Pairwise.filter _ h

/-- `MemWrite` keeps the canonical form. -/
theorem wf_memWrite {m : Memory} (h : m.wf) (x : Nat) (bs : List Byte) : (m.memWrite x bs).wf := by
  refine List.pairwise_append.2 ⟨List.pairwise_append.2 ⟨wf_below h x, wf_cellsFrom x bs, ?_⟩, wf_fromAddr h _, ?_⟩
  · intro c hc d hd
    exact lt_of_lt_of_le (mem_below.1 hc).2 (mem_cellsFrom hd).1
  · intro c hc d hd
    have hd := (mem_fromAddr.1 hd).2
    rcases List.mem_append.1 hc with hc | hc
    · have := (mem_below.1 hc).2
      omega
    · have := mem_cellsFrom hc
      omega

/-- Forgetting cells keeps the canonical form. -/
theorem wf_forget {m : Memory} (h : m.wf) (x n : Nat) : (m.forget x n).wf := by
  refine List.pairwise_append.2 ⟨wf_below h x, wf_fromAddr h _, fun c hc d hd => ?_⟩
  have hc := (mem_below.1 hc).2
  have hd := (mem_fromAddr.1 hd).2
  omega

theorem wf_allUnknown : Memory.wf Memory.allUnknown := List.Pairwise.nil

/-- A cell listed after `MemWrite` was listed before, or is one of the stored cells. -/
theorem mem_memWrite {m : Memory} {x : Nat} {bs : List Byte} {c : Host.Cell} (h : c ∈ m.memWrite x bs) :
    c ∈ m ∨ (x ≤ c.1 ∧ c.1 < x + bs.length) := by
  rcases List.mem_append.1 h with h | h
  · rcases List.mem_append.1 h with h | h
    · exact .inl (mem_below.1 h).1
    · exact .inr (mem_cellsFrom h)
  · exact .inl (mem_fromAddr.1 h).1

/-- A cell listed after forgetting was listed before. -/
theorem mem_forget {m : Memory} {x n : Nat} {c : Host.Cell} (h : c ∈ m.forget x n) : c ∈ m := by
  rcases List.mem_append.1 h with h | h
  · exact (mem_below.1 h).1
  · exact (mem_fromAddr.1 h).1

/-- `MemWrite` inside the capacity keeps the buffer's form (20_memory.md R51). -/
theorem bufferOk_memWrite {p : Params} {r r' : Reassembler} {x : Nat} {bs : List Byte} (h : BufferOk p r)
    (hb : r'.buf = r.buf.memWrite x bs) (hle : x + bs.length ≤ p.maxOctetCount.val) : BufferOk p r' := by
  refine ⟨hb ▸ wf_memWrite h.1 x bs, fun c hc => ?_⟩
  rcases mem_memWrite (hb ▸ hc) with h' | h'
  · exact h.2 c h'
  · omega

/-- Forgetting cells keeps the buffer's form. -/
theorem bufferOk_forget {p : Params} {r r' : Reassembler} {x n : Nat} (h : BufferOk p r)
    (hb : r'.buf = r.buf.forget x n) : BufferOk p r' :=
  ⟨hb ▸ wf_forget h.1 x n, fun c hc => h.2 c (mem_forget (hb ▸ hc))⟩

/-- A buffer of `unknown` cells has the form. -/
theorem bufferOk_nil {p : Params} {r : Reassembler} (hb : r.buf = []) : BufferOk p r := by
  refine ⟨?_, ?_⟩ <;> rw [hb]
  · exact List.Pairwise.nil
  · simp

end Sys2Proof.Machine
end

