-- ==== Sys2Proof/Laws/Encoding.lean ====
section
/-! SUPPORT. The fields of a command word and of a 16-bit wire value as numbers (30_encoding.md R90 to R93, 20_memory.md R53). -/

namespace Sys2Proof

/-! ## Fields of a command word -/

theorem toNat_opcField (c : Word) : (opcField c).toNat = c.toNat / 2 ^ 24 := by
  have := c.isLt
  simp only [opcField, BitVec.extractLsb'_toNat, Nat.shiftRight_eq_div_pow]
  omega

theorem toNat_lowField (c : Word) : (lowField c).toNat = c.toNat % 2 ^ 24 := by
  simp [lowField, BitVec.extractLsb'_toNat]

theorem toNat_reservedFieldH (c : Word) : (reservedFieldH c).toNat = c.toNat / 2 ^ 17 % 2 ^ 7 := by
  simp [reservedFieldH, BitVec.extractLsb'_toNat, Nat.shiftRight_eq_div_pow]

theorem finalField_eq (c : Word) : finalField c = decide (c.toNat / 2 ^ 16 % 2 = 1) := by
  rw [finalField, ← BitVec.testBit_toNat, Nat.testBit_eq_decide_div_mod_eq]

theorem toNat_lenField (c : Word) : (lenField c).toNat = c.toNat % 2 ^ 16 := by
  simp [lenField, BitVec.extractLsb'_toNat]

/-! ## The encoder -/

/-- An append of bit vectors as a number. -/
theorem toNat_append_eq {n m : Nat} (a : BitVec n) (b : BitVec m) : (a ++ b).toNat = a.toNat * 2 ^ m + b.toNat := by
  rw [BitVec.toNat_append, ← Nat.shiftLeft_add_eq_or_of_lt b.isLt, Nat.shiftLeft_eq]

theorem toNat_encode (i : Instr) : (encode i).toNat = i.opcode.toNat * 2 ^ 24 + i.lowBits.toNat :=
  toNat_append_eq i.opcode i.lowBits

theorem toNat_lowBits_wWrhdr (f : Bool) (len : Half) :
    (Instr.wWrhdr f len).lowBits.toNat = f.toNat * 2 ^ 16 + len.toNat := by
  have h : (Instr.wWrhdr f len).lowBits.toNat = ((0#7 ++ BitVec.ofBool f : BitVec (7 + 1)) ++ len).toNat := rfl
  rw [h, toNat_append_eq, toNat_append_eq]
  cases f <;> simp

theorem toNat_lowBits_rRdbuf (addr : Word) : (Instr.rRdbuf addr).lowBits.toNat = addr.toNat % 2 ^ 24 := by
  simp [Instr.lowBits, BitVec.toNat_setWidth]

@[simp] theorem opcField_encode (i : Instr) : opcField (encode i) = i.opcode := by
  apply BitVec.eq_of_toNat_eq
  rw [toNat_opcField, toNat_encode]
  have := i.lowBits.isLt
  omega

@[simp] theorem lowField_encode (i : Instr) : lowField (encode i) = i.lowBits := by
  apply BitVec.eq_of_toNat_eq
  rw [toNat_lowField, toNat_encode]
  have := i.lowBits.isLt
  omega

end Sys2Proof

namespace Sys2Proof.Machine

/-! ## 16-bit values on the wire -/

theorem toNat_u16Value_big (b0 b1 : Byte) : (u16Value .big b0 b1).toNat = b0.toNat * 256 + b1.toNat :=
  toNat_append_eq b0 b1

theorem toNat_u16Value_little (b0 b1 : Byte) : (u16Value .little b0 b1).toNat = b1.toNat * 256 + b0.toNat :=
  toNat_append_eq b1 b0

/-- The two bytes of a 16-bit value give it back (20_memory.md R53). -/
theorem u16Bytes_spec (o : ByteOrder) (v : Half) :
    ∃ b0 b1, u16Bytes o v = [b0, b1] ∧ u16Value o b0 b1 = v ∧
      (o = .big → b0.toNat = v.toNat / 256 ∧ b1.toNat = v.toNat % 256) ∧
      (o = .little → b0.toNat = v.toNat % 256 ∧ b1.toNat = v.toNat / 256) := by
  have hv := v.isLt
  have hh : (v.extractLsb' 8 8).toNat = v.toNat / 256 := by
    simp only [BitVec.extractLsb'_toNat, Nat.shiftRight_eq_div_pow]
    omega
  have hl : (v.extractLsb' 0 8).toNat = v.toNat % 256 := by simp [BitVec.extractLsb'_toNat]
  cases o with
  | big =>
    refine ⟨_, _, rfl, BitVec.eq_of_toNat_eq ?_, fun _ => ⟨hh, hl⟩, fun h => by cases h⟩
    rw [toNat_u16Value_big, hh, hl]
    omega
  | little =>
    refine ⟨_, _, rfl, BitVec.eq_of_toNat_eq ?_, (fun h => by cases h), fun _ => ⟨hl, hh⟩⟩
    rw [toNat_u16Value_little, hh, hl]
    omega

end Sys2Proof.Machine
end

