-- ==== Sys2Proof/Laws/Streams.lean ====
section
/-! SUPPORT. The stream primitives and the header codec: when each succeeds and what it gives (20_memory.md R56 to R61,
30_encoding.md R85, R86). -/

namespace Sys2Proof.Machine

/-! ## Input stream -/

/-- Everything a read can do when it succeeds (20_memory.md R56). -/
theorem inRead_eq_some {k : Nat} {st st' : InStream} {bs : List Byte} (h : inRead k st = some (bs, st')) :
    k ≤ st.data.length - st.pos ∧ bs = (st.data.drop st.pos).take k ∧ st' = ⟨st.data, st.pos + k⟩ := by
  unfold inRead InStream.remaining at h
  split at h
  · simp only [Option.some.injEq, Prod.mk.injEq] at h
    exact ⟨‹_›, h.1.symm, h.2.symm⟩
  · cases h

theorem inRead_of_le {k : Nat} {st : InStream} (h : k ≤ st.data.length - st.pos) :
    inRead k st = some ((st.data.drop st.pos).take k, ⟨st.data, st.pos + k⟩) := if_pos h

theorem inRead_of_lt {k : Nat} {st : InStream} (h : st.data.length - st.pos < k) : inRead k st = none :=
  if_neg (Nat.not_le_of_lt h)

/-- The bytes that stand at the read position are the bytes read. -/
theorem inRead_of_drop {k : Nat} {st : InStream} {bs rest : List Byte} (h : st.data.drop st.pos = bs ++ rest)
    (hk : k = bs.length) : inRead k st = some (bs, ⟨st.data, st.pos + k⟩) := by
  have hl : (st.data.drop st.pos).length = st.data.length - st.pos := List.length_drop
  rw [h, List.length_append] at hl
  rw [inRead_of_le (by omega), h, hk, List.take_left]

/-- What is left after a read. -/
theorem drop_after {data bs rest : List Byte} {pos : Nat} (h : data.drop pos = bs ++ rest) :
    data.drop (pos + bs.length) = rest := by
  rw [← List.drop_drop, h, List.drop_left]

theorem inReadU8_of_drop {st : InStream} {b : Byte} {rest : List Byte} (h : st.data.drop st.pos = b :: rest) :
    inReadU8 st = some (b, ⟨st.data, st.pos + 1⟩) := by
  unfold inReadU8
  rw [inRead_of_drop (k := 1) (bs := [b]) (rest := rest) (by simpa using h) rfl]

theorem inReadU16_of_drop {o : ByteOrder} {st : InStream} {b0 b1 : Byte} {rest : List Byte}
    (h : st.data.drop st.pos = b0 :: b1 :: rest) :
    inReadU16 o st = some (u16Value o b0 b1, ⟨st.data, st.pos + 2⟩) := by
  unfold inReadU16
  rw [inRead_of_drop (k := 2) (bs := [b0, b1]) (rest := rest) (by simpa using h) rfl]

theorem inReadU8_of_lt {st : InStream} (h : st.data.length - st.pos < 1) : inReadU8 st = none := by
  unfold inReadU8
  rw [inRead_of_lt h]

theorem inReadU16_of_lt {o : ByteOrder} {st : InStream} (h : st.data.length - st.pos < 2) : inReadU16 o st = none := by
  unfold inReadU16
  rw [inRead_of_lt h]

theorem inReadU8_eq_some {st st' : InStream} {b : Byte} (h : inReadU8 st = some (b, st')) :
    1 ≤ st.data.length - st.pos ∧ st' = ⟨st.data, st.pos + 1⟩ := by
  unfold inReadU8 at h
  split at h
  · next hr =>
    obtain ⟨h1, -, h3⟩ := inRead_eq_some hr
    simp only [Option.some.injEq, Prod.mk.injEq] at h
    exact ⟨h1, h.2 ▸ h3⟩
  · cases h

theorem inReadU16_eq_some {o : ByteOrder} {st st' : InStream} {v : Half} (h : inReadU16 o st = some (v, st')) :
    2 ≤ st.data.length - st.pos ∧ st' = ⟨st.data, st.pos + 2⟩ := by
  unfold inReadU16 at h
  split at h
  · next hr =>
    obtain ⟨h1, -, h3⟩ := inRead_eq_some hr
    simp only [Option.some.injEq, Prod.mk.injEq] at h
    exact ⟨h1, h.2 ▸ h3⟩
  · cases h

theorem inSkip_eq_some {n : Nat} {st st' : InStream} (h : inSkip n st = some st') :
    n ≤ st.data.length - st.pos ∧ st' = ⟨st.data, st.pos + n⟩ := by
  unfold inSkip at h
  cases hr : inRead n st with
  | none => simp [hr] at h
  | some q =>
    obtain ⟨bs, st2⟩ := q
    obtain ⟨h1, -, h3⟩ := inRead_eq_some hr
    simp only [hr, Option.map_some, Option.some.injEq] at h
    exact ⟨h1, h ▸ h3⟩

theorem inSkip_of_le {n : Nat} {st : InStream} (h : n ≤ st.data.length - st.pos) :
    inSkip n st = some ⟨st.data, st.pos + n⟩ := by
  unfold inSkip
  rw [inRead_of_le h, Option.map_some]

theorem inSkip_of_lt {n : Nat} {st : InStream} (h : st.data.length - st.pos < n) : inSkip n st = none := by
  unfold inSkip
  rw [inRead_of_lt h, Option.map_none]

theorem inReadOctets_eq_some {n : Nat} {st st' : InStream} {bs : List Byte} (h : inReadOctets n st = some (bs, st')) :
    n ≤ st.data.length - st.pos ∧ bs.length = n ∧ st' = ⟨st.data, st.pos + n⟩ := by
  obtain ⟨h1, h2, h3⟩ := inRead_eq_some h
  refine ⟨h1, ?_, h3⟩
  rw [h2, List.length_take, List.length_drop]
  omega

/-- The drawn position lies between the start position and the end of the data (20_memory.md R62). -/
theorem drawInputPos_bounds (s : State) :
    s.inp.pos ≤ (drawInputPos s).inp.pos ∧ (s.inp.wf → (drawInputPos s).inp.pos ≤ s.inp.data.length) := by
  have := Nat.mod_lt (Config.freeNat s.draws) (Nat.succ_pos (s.inp.data.length - s.inp.pos))
  simp only [drawInputPos_inp, InStream.wf, Nat.succ_eq_add_one] at *
  omega

/-! ## Output stream -/

@[simp] theorem length_u16Bytes (o : ByteOrder) (v : Half) : (u16Bytes o v).length = 2 := by
  cases o <;> rfl

@[simp] theorem length_encodeHeader (o : ByteOrder) (seq : Half) (pf : Byte) (len : Half) :
    (encodeHeader o seq pf len).length = 5 := by
  simp [encodeHeader]

theorem outWrite_of_le {bs : List Byte} {st : OutStream} (h : bs.length ≤ st.cap) :
    outWrite bs st = some ⟨st.data ++ bs, st.cap - bs.length⟩ := if_pos h

theorem outWrite_of_lt {bs : List Byte} {st : OutStream} (h : st.cap < bs.length) : outWrite bs st = none :=
  if_neg (Nat.not_le_of_lt h)

/-- Two writes in a row are one write of both byte strings. -/
theorem outWrite_bind (bs cs : List Byte) (st : OutStream) :
    (outWrite bs st).bind (outWrite cs) = outWrite (bs ++ cs) st := by
  by_cases h : bs.length ≤ st.cap
  · rw [outWrite_of_le h, Option.bind_some]
    by_cases h' : cs.length ≤ st.cap - bs.length
    · rw [outWrite_of_le h', outWrite_of_le (by rw [List.length_append]; omega)]
      simp [List.append_assoc, Nat.sub_sub]
    · rw [outWrite_of_lt (by simpa using h'), outWrite_of_lt (by rw [List.length_append]; omega)]
  · rw [outWrite_of_lt (by omega), outWrite_of_lt (by rw [List.length_append]; omega), Option.bind_none]

/-- The three writes of `W.WRHDR` together: the whole header, exactly when five bytes fit (40_writer.md R114). -/
theorem writeHeaderFields_eq (o : ByteOrder) (seq : Half) (pf : Byte) (len : Half) (st : OutStream) :
    writeHeaderFields o seq pf len st =
      if 5 ≤ st.cap then some ⟨st.data ++ encodeHeader o seq pf len, st.cap - 5⟩ else none := by
  have h : writeHeaderFields o seq pf len st = outWrite (encodeHeader o seq pf len) st := by
    unfold writeHeaderFields outWriteU16 outWriteU8 encodeHeader
    rw [← outWrite_bind, ← outWrite_bind]
  rw [h, outWrite, length_encodeHeader]

end Sys2Proof.Machine
end

