-- ==== Sys2Proof/Laws/Ops.lean ====
section
/-! SUPPORT. What each shared operation and each command body can do, said once. -/

namespace Sys2Proof.Machine

/-! ## Faulted units and lifecycle checks (60_exceptions.md R185 to R187) -/

/-- A Writer command answers a next state exactly when the Writer is not faulted. -/
theorem writerCommand_eq_next {k : State → State} {s t : State} :
    writerCommand k s = .next t ↔ s.w.fault = .none ∧ t = k s := by
  unfold writerCommand
  cases s.w.fault <;> simp [eq_comm]

/-- A Reassembler command answers a next state exactly when the Reassembler is not faulted. -/
theorem reassemblerCommand_eq_next {k : State → State} {s t : State} :
    reassemblerCommand k s = .next t ↔ s.r.fault = .none ∧ t = k s := by
  unfold reassemblerCommand
  cases s.r.fault <;> simp [eq_comm]

theorem writerCommand_of_none {k : State → State} {s : State} (h : s.w.fault = .none) :
    writerCommand k s = .next (k s) := by
  simp [writerCommand, h]

theorem reassemblerCommand_of_none {k : State → State} {s : State} (h : s.r.fault = .none) :
    reassemblerCommand k s = .next (k s) := by
  simp [reassemblerCommand, h]

theorem whenWriterLive_of_live {k : State → State} {s : State} (h : s.w.life = .live) :
    whenWriterLive k s = k s := by
  simp [whenWriterLive, h]

theorem whenReassemblerLive_of_live {g k : State → State} {s : State} (h : s.r.life = .live) :
    whenReassemblerLive g k s = k s := by
  simp [whenReassemblerLive, h]

/-- The Writer's check either takes the fault or goes on. -/
theorem whenWriterLive_cases (k : State → State) (s : State) :
    (s.w.life = .live ∧ whenWriterLive k s = k s) ∨
    (s.w.life = .uninit ∧ whenWriterLive k s = raiseWriterFault .useBeforeInit s) := by
  unfold whenWriterLive
  cases s.w.life <;> simp

/-- `check_live()` either takes one of two faults or goes on. -/
theorem whenReassemblerLive_cases (g k : State → State) (s : State) :
    (s.r.life = .live ∧ whenReassemblerLive g k s = k s) ∨
    (s.r.life = .uninit ∧ whenReassemblerLive g k s = raiseReassemblerFault .useBeforeInit (g s)) ∨
    (s.r.life = .destroyed ∧ whenReassemblerLive g k s = raiseReassemblerFault .useAfterDestroy (g s)) := by
  unfold whenReassemblerLive
  cases s.r.life <;> simp

/-! ## `W.WRHDR` (40_writer.md R114 to R117) -/

/-- The three ends of `W.WRHDR` on a `Live` Writer. -/
theorem writeHeader_cases (f : Bool) (len : Half) (s : State) :
    ((128 ≤ s.w.part.toNat ∧ s.params.overflowMode = .error) ∧ writeHeader f len s = respond .partOverflow 0 s) ∨
    (¬ (128 ≤ s.w.part.toNat ∧ s.params.overflowMode = .error) ∧ s.out.cap < 5 ∧
      writeHeader f len s = respond .streamOverflow 0
        (drawOutputPrefix (encodeHeader s.params.byteOrder s.w.seq (pfByte s.params.overflowMode s.w.part f) len) s)) ∨
    (¬ (128 ≤ s.w.part.toNat ∧ s.params.overflowMode = .error) ∧ 5 ≤ s.out.cap ∧
      writeHeader f len s = respond .ok 0
        { s with
          w := { s.w with part := s.w.part + 1 }
          out := ⟨s.out.data ++ encodeHeader s.params.byteOrder s.w.seq (pfByte s.params.overflowMode s.w.part f) len,
                  s.out.cap - 5⟩ }) := by
  unfold writeHeader
  simp only [writeHeaderFields_eq]
  by_cases h : 128 ≤ s.w.part.toNat ∧ s.params.overflowMode = .error
  · exact .inl ⟨h, if_pos h⟩
  · by_cases hc : 5 ≤ s.out.cap
    · exact .inr (.inr ⟨h, hc, by simp [h, hc]⟩)
    · exact .inr (.inl ⟨h, by omega, by simp [h, hc]⟩)

/-! ## `R.RECEIVE` (41_reassembler.md R142 to R154) -/

/-- Steps 3 and 4 select a fragment in two ways: a start, or the expected part of the sequence in progress
(R145 to R147). -/
theorem selectFragment_eq_some {r : Reassembler} {seq : Half} {part : PartIndex} {t : Tentative}
    (h : selectFragment r seq part = some t) :
    ((seq ≠ r.expSeq ∨ r.recv = false) ∧ part = 0 ∧ t = ⟨seq, 0, true, 0⟩) ∨
    (seq = r.expSeq ∧ r.recv = true ∧ part.setWidth 8 = r.expPart ∧ t = ⟨r.expSeq, r.expPart, r.recv, r.count⟩) := by
  simp only [selectFragment, Option.filter_eq_some_iff, partMatches, beq_iff_eq] at h
  obtain ⟨h, hp⟩ := h
  unfold startOrContinue at h
  by_cases hn : notInProgress r seq = true
  · rw [if_pos hn] at h
    by_cases hz : part = 0
    · rw [if_neg (by simpa using hz)] at h
      refine .inl ⟨by simpa [notInProgress] using hn, hz, by simpa [eq_comm] using h⟩
    · rw [if_pos hz] at h
      cases h
  · rw [if_neg hn, Option.some.injEq] at h
    subst h
    simp only [notInProgress, Bool.or_eq_true, bne_iff_ne, Bool.not_eq_true', not_or, not_not, Bool.not_eq_false] at hn
    exact .inr ⟨hn.1, hn.2, hp, rfl⟩

/-- An accepted fragment's tentative part lies in the 7-bit range (10_state.md R28). -/
theorem selectFragment_part_lt {r : Reassembler} {seq : Half} {part : PartIndex} {t : Tentative}
    (h : selectFragment r seq part = some t) : t.expPart.toNat < 128 := by
  rcases selectFragment_eq_some h with ⟨-, -, rfl⟩ | ⟨-, -, hp, rfl⟩
  · simp
  · have := part.isLt
    simp only [← hp, BitVec.toNat_setWidth]
    omega

/-- The selected fragment always has `rv = 1` (R146). -/
theorem selectFragment_recv {r : Reassembler} {seq : Half} {part : PartIndex} {t : Tentative}
    (h : selectFragment r seq part = some t) : t.recv = true := by
  rcases selectFragment_eq_some h with ⟨-, -, rfl⟩ | ⟨-, hr, -, rfl⟩
  · rfl
  · exact hr

/-- The ways `R.RECEIVE` ends on a `Live` Reassembler. -/
theorem receive_cases (s : State) :
    -- a failure that changes no register and no cell
    (∃ st, (st = .streamUnderflow ∨ st = .capacityExceeded) ∧ receive s = failReceive st s) ∨
    -- an ignored fragment
    (∃ n, 3 ≤ n ∧ s.inp.pos + n ≤ s.inp.data.length ∧
      receive s = respond .ok 0 { s with inp := ⟨s.inp.data, s.inp.pos + n⟩ }) ∨
    -- a truncated payload
    (∃ seq part t len, selectFragment s.r seq part = some t ∧ targetCells s = some (t.count.toNat, len) ∧
      t.count.toNat + len ≤ s.params.maxOctetCount.val ∧
      receive s = failReceive .streamUnderflow { s with r := { s.r with buf := s.r.buf.forget t.count.toNat len } }) ∨
    -- an accepted fragment
    (∃ (seq : Half) (part : PartIndex) (t : Tentative) (fin : Bool) (len : Half) (bs : List Byte),
      selectFragment s.r seq part = some t ∧ targetCells s = some (t.count.toNat, len.toNat) ∧
      t.count.toNat + len.toNat ≤ s.params.maxOctetCount.val ∧ bs.length = len.toNat ∧
      s.inp.pos + 5 + len.toNat ≤ s.inp.data.length ∧
      receive s = respond .ok 0
        { s with r := commitFragment t fin len bs s.r, inp := ⟨s.inp.data, s.inp.pos + 5 + len.toNat⟩ }) := by
  unfold receive targetCells
  cases h1 : inReadU16 s.params.byteOrder s.inp with
  | none => exact .inl ⟨_, .inl rfl, rfl⟩
  | some q1 =>
    obtain ⟨seq, in1⟩ := q1
    obtain ⟨l1, rfl⟩ := inReadU16_eq_some h1
    dsimp only
    cases h2 : inReadU8 (⟨s.inp.data, s.inp.pos + 2⟩ : InStream) with
    | none => exact .inl ⟨_, .inl rfl, rfl⟩
    | some q2 =>
      obtain ⟨b, in2⟩ := q2
      obtain ⟨l2, rfl⟩ := inReadU8_eq_some h2
      simp only at l2
      dsimp only
      cases h3 : selectFragment s.r seq (partOf b) with
      | none =>
        dsimp only [ignoreFragment]
        cases s.params.ignoreMode with
        | prefixOnly => exact .inr (.inl ⟨3, le_refl 3, by omega, rfl⟩)
        | full =>
          dsimp only
          cases h4 : inReadU16 s.params.byteOrder (⟨s.inp.data, s.inp.pos + 2 + 1⟩ : InStream) with
          | none => exact .inl ⟨_, .inl rfl, rfl⟩
          | some q4 =>
            obtain ⟨len, in3⟩ := q4
            obtain ⟨l4, rfl⟩ := inReadU16_eq_some h4
            dsimp only at l4 ⊢
            cases h5 : inSkip len.toNat (⟨s.inp.data, s.inp.pos + 2 + 1 + 2⟩ : InStream) with
            | none => exact .inl ⟨_, .inl rfl, rfl⟩
            | some in4 =>
              obtain ⟨l5, rfl⟩ := inSkip_eq_some h5
              dsimp only at l5
              exact .inr (.inl ⟨5 + len.toNat, by omega, by omega, by simp [Nat.add_assoc]⟩)
      | some t =>
        dsimp only [acceptFragment]
        cases h4 : inReadU16 s.params.byteOrder (⟨s.inp.data, s.inp.pos + 2 + 1⟩ : InStream) with
        | none => exact .inl ⟨_, .inl rfl, rfl⟩
        | some q4 =>
          obtain ⟨len, in3⟩ := q4
          obtain ⟨l4, rfl⟩ := inReadU16_eq_some h4
          dsimp only [Option.map_some] at l4 ⊢
          by_cases hc : s.params.maxOctetCount.val < t.count.toNat + len.toNat
          · exact .inl ⟨_, .inr rfl, if_pos hc⟩
          · rw [if_neg hc]
            cases h5 : inReadOctets len.toNat (⟨s.inp.data, s.inp.pos + 2 + 1 + 2⟩ : InStream) with
            | none => exact .inr (.inr (.inl ⟨seq, _, t, len.toNat, h3, rfl, by omega, rfl⟩))
            | some q5 =>
              obtain ⟨bs, in4⟩ := q5
              obtain ⟨l5, hb, rfl⟩ := inReadOctets_eq_some h5
              dsimp only at l5
              exact .inr (.inr (.inr ⟨seq, _, t, isFinalOf b, len, bs, h3, rfl, by omega, hb, by omega,
                by simp [Nat.add_assoc]⟩))

/-! ## `R.RDBUF` (41_reassembler.md R166) -/

/-- A read of the buffer: the byte the cell holds, or a draw; nothing else changes but the draw counter. -/
theorem memRead_cases (a : Nat) (s : State) :
    (∃ b, s.r.buf.read a = some b ∧ memRead a s = (b, s)) ∨
    (s.r.buf.read a = none ∧ memRead a s = (Config.freeByte s.draws, { s with draws := s.draws + 1 })) := by
  unfold memRead
  cases s.r.buf.read a <;> simp

/-- The ends of `R.RDBUF` on a `Live` Reassembler. -/
theorem readBuffer_cases (addr : Word) (s : State) :
    (s.params.maxOctetCount.val ≤ addr.toNat ∧ readBuffer addr s = respond .addressOutOfRange 0 s) ∨
    (∃ (b : Byte) (n : Nat), addr.toNat < s.params.maxOctetCount.val ∧
      readBuffer addr s = respond .ok (b.setWidth 32) { s with draws := n }) := by
  unfold readBuffer
  by_cases h : s.params.maxOctetCount.val ≤ addr.toNat
  · exact .inl ⟨h, if_pos h⟩
  · rw [if_neg h]
    rcases memRead_cases addr.toNat s with ⟨b, -, e⟩ | ⟨-, e⟩
    · exact .inr ⟨b, s.draws, by omega, by rw [e]⟩
    · exact .inr ⟨_, _, by omega, by rw [e]⟩

end Sys2Proof.Machine
end

