-- ==== Sys2Proof/Laws/PerInstr.lean ====
section
/-! SUPPORT. Statements for all commands, one lemma per constructor. -/

/-- The command's word carries its opcode in bits 31:24, and decoding that word never calls the opcode unknown
(30_encoding.md R90, R94). -/
def Sys2Proof.Laws.EncodedOpcode.Statement (i : Sys2Proof.Instr) : Prop :=
  Sys2Proof.opcField (Sys2Proof.encode i) = i.opcode ∧
    ∀ opc, Sys2Proof.decode (Sys2Proof.encode i) ≠ .error (.unknownOpcode opc)

namespace Sys2Proof.Laws.EncodedOpcode

open Sys2Proof

theorem decodeN_ne (i : Instr) (c : Word) (opc : BitVec 8) : decodeN i c ≠ .error (.unknownOpcode opc) := by
  unfold decodeN
  split <;> simp

theorem decodeH_ne (c : Word) (opc : BitVec 8) : decodeH c ≠ .error (.unknownOpcode opc) := by
  unfold decodeH
  split <;> simp

/-- The word of a command never decodes to an unknown opcode. -/
theorem decode_encode_ne (i : Instr) (opc : BitVec 8) : decode (encode i) ≠ .error (.unknownOpcode opc) := by
  cases i with
  | wWrhdr f len => simpa [decode, Instr.opcode] using decodeH_ne _ opc
  | rRdbuf addr => simp [decode, Instr.opcode, decodeA]
  | wInit | wAdvseq | rInit | rDestroy | rReset | rIscomplete | rReceive | rRdcount =>
    simpa [decode, Instr.opcode] using decodeN_ne _ _ opc

theorem wInit : Statement .wInit := ⟨opcField_encode _, decode_encode_ne _⟩

theorem wAdvseq : Statement .wAdvseq := ⟨opcField_encode _, decode_encode_ne _⟩

theorem wWrhdr (f : Bool) (len : Half) : Statement (.wWrhdr f len) := ⟨opcField_encode _, decode_encode_ne _⟩

theorem rInit : Statement .rInit := ⟨opcField_encode _, decode_encode_ne _⟩

theorem rDestroy : Statement .rDestroy := ⟨opcField_encode _, decode_encode_ne _⟩

theorem rReset : Statement .rReset := ⟨opcField_encode _, decode_encode_ne _⟩

theorem rIscomplete : Statement .rIscomplete := ⟨opcField_encode _, decode_encode_ne _⟩

theorem rReceive : Statement .rReceive := ⟨opcField_encode _, decode_encode_ne _⟩

theorem rRdcount : Statement .rRdcount := ⟨opcField_encode _, decode_encode_ne _⟩

theorem rRdbuf (addr : Word) : Statement (.rRdbuf addr) := ⟨opcField_encode _, decode_encode_ne _⟩

end Sys2Proof.Laws.EncodedOpcode
end

