-- ==== Sys2Proof/Laws/Receive.lean ====
section
/-! SUPPORT. `R.RECEIVE` from the bytes that stand at the read position: the parse of steps 1 and 2, and the choice of steps 3
and 4 (41_reassembler.md R143 to R147). -/

namespace Sys2Proof.Machine

/-- A whole header is a prefix followed by the two length bytes. -/
theorem HeaderAt.toPrefix {s : State} {h : Header} {rest : List Byte} (hh : HeaderAt s h rest) :
    ∃ b3 b4, PrefixAt s h.seq h.part h.fin (b3 :: b4 :: rest) ∧ u16Value s.params.byteOrder b3 b4 = h.len := by
  obtain ⟨b0, b1, b2, b3, b4, hd, rfl⟩ := hh
  exact ⟨b3, b4, ⟨b0, b1, b2, hd, rfl, rfl, rfl⟩, rfl⟩

/-- What is left in the data after a prefix. -/
theorem PrefixAt.drop {s : State} {seq : Half} {part : PartIndex} {fin : Bool} {rest : List Byte}
    (h : PrefixAt s seq part fin rest) : s.inp.data.drop (s.inp.pos + 3) = rest := by
  obtain ⟨b0, b1, b2, hd, -⟩ := h
  exact drop_after (bs := [b0, b1, b2]) hd

theorem PrefixAt.length {s : State} {seq : Half} {part : PartIndex} {fin : Bool} {rest : List Byte}
    (h : PrefixAt s seq part fin rest) : s.inp.data.length - (s.inp.pos + 3) = rest.length := by
  rw [← h.drop, List.length_drop]

/-- Steps 1 and 2 (R143, R144): with three bytes there, the command goes on to the choice of steps 3 and 4. -/
theorem receive_of_prefix {s : State} {seq : Half} {part : PartIndex} {fin : Bool} {rest : List Byte}
    (h : PrefixAt s seq part fin rest) :
    receive s = match selectFragment s.r seq part with
      | none => ignoreFragment ⟨s.inp.data, s.inp.pos + 3⟩ s
      | some t => acceptFragment t fin ⟨s.inp.data, s.inp.pos + 3⟩ s := by
  obtain ⟨b0, b1, b2, hd, rfl, rfl, rfl⟩ := h
  have h2 : s.inp.data.drop (s.inp.pos + 2) = b2 :: rest := drop_after (bs := [b0, b1]) hd
  rw [receive, inReadU16_of_drop hd]
  dsimp only
  rw [inReadU8_of_drop (st := ⟨s.inp.data, s.inp.pos + 2⟩) h2] <;> rfl

/-- The 7-bit part zero-extended equals an 8-bit counter exactly when the numbers agree (30_encoding.md R88). -/
theorem setWidth_eq_iff (part : PartIndex) (e : BitVec 8) : part.setWidth 8 = e ↔ part.toNat = e.toNat := by
  have := part.isLt
  rw [← BitVec.toNat_inj, BitVec.toNat_setWidth]
  omega

theorem selectFragment_of_starts {r : Reassembler} {seq : Half} {part : PartIndex} (h : Starts r seq part) :
    selectFragment r seq part = some ⟨seq, 0, true, 0⟩ := by
  obtain ⟨hs, hp⟩ := h
  have hn : notInProgress r seq = true := by simpa [notInProgress] using hs
  have h0 : part = 0 := BitVec.eq_of_toNat_eq hp
  subst h0
  simp [selectFragment, startOrContinue, hn, partMatches]

theorem selectFragment_of_continues {r : Reassembler} {seq : Half} {part : PartIndex} (h : Continues r seq part) :
    selectFragment r seq part = some ⟨r.expSeq, r.expPart, r.recv, r.count⟩ := by
  obtain ⟨rfl, hr, hp⟩ := h
  have hn : notInProgress r r.expSeq = false := by simp [notInProgress, hr]
  simp [selectFragment, startOrContinue, hn, partMatches, (setWidth_eq_iff _ _).2 hp]

theorem selectFragment_of_ignored {r : Reassembler} {seq : Half} {part : PartIndex} (h : IsIgnored r seq part) :
    selectFragment r seq part = none := by
  rcases h with ⟨hs, hp⟩ | ⟨rfl, hr, hp⟩
  · have hn : notInProgress r seq = true := by simpa [notInProgress] using hs
    have h0 : ¬ part = 0#7 := fun h0 => hp (by simp [h0])
    simp [selectFragment, startOrContinue, hn, h0]
  · have hn : notInProgress r r.expSeq = false := by simp [notInProgress, hr]
    simp [selectFragment, startOrContinue, hn, partMatches, setWidth_eq_iff, hp]

/-- A selected fragment has `rv = 1` and counts from `cnt` (R146). -/
theorem selectFragment_of_selectedAt {r : Reassembler} {seq : Half} {part : PartIndex} {cnt : Nat}
    (h : SelectedAt r seq part cnt) :
    ∃ t, selectFragment r seq part = some t ∧ t.expSeq = seq ∧ t.expPart.toNat = part.toNat ∧ t.recv = true ∧
      t.count.toNat = cnt := by
  rcases h with ⟨hs, rfl⟩ | ⟨hc, rfl⟩
  · exact ⟨_, selectFragment_of_starts hs, rfl, by simp [hs.2], rfl, by simp⟩
  · exact ⟨_, selectFragment_of_continues hc, hc.1.symm, hc.2.2.symm, hc.2.1, rfl⟩

end Sys2Proof.Machine
end

