-- ==== Sys2Proof/Laws/Run.lean ====
section
/-! SUPPORT. What one step can do, and running several. -/

namespace Sys2Proof.Machine

/-- A step that answers a next state took nothing, an asserted reset, an illegal word, or a decoded command. -/
theorem step_cases {s t : State} (h : step s = .next t) :
    (s.pending = [] ∧ t = s) ∨
    (∃ rest, s.pending = .assertReset :: rest ∧ t = applyReset { s with pending := rest }) ∨
    (∃ c rest e, s.pending = .command c :: rest ∧ c.inp.wf ∧ decode c.word = .error e ∧
      t = answerIllegal (acceptCommand c rest s)) ∨
    (∃ c rest i, s.pending = .command c :: rest ∧ c.inp.wf ∧ decode c.word = .ok i ∧
      exec i (acceptCommand c rest s) = .next t) := by
  unfold step at h
  split at h
  · next hp => exact .inl ⟨hp, by simpa [eq_comm] using h⟩
  · next rest hp => exact .inr (.inl ⟨rest, hp, by simpa [eq_comm] using h⟩)
  · next c rest hp =>
    split at h
    · next hw =>
      cases hd : decode c.word with
      | error e =>
        rw [hd] at h
        exact .inr (.inr (.inl ⟨c, rest, e, hp, hw, hd, by simpa [eq_comm] using h⟩))
      | ok i =>
        rw [hd] at h
        exact .inr (.inr (.inr ⟨c, rest, i, hp, hw, hd, h⟩))
    · cases h

@[simp] theorem runSteps_zero (s : State) : runSteps 0 s = .next s := rfl

/-- A run goes on from the state its first step answers. -/
theorem runSteps_succ {s t : State} (h : step s = .next t) (n : Nat) : runSteps (n + 1) s = runSteps n t := by
  have hc : Host.Core.step Sys2Proof.core s = .next t := h
  simp only [runSteps, Host.Core.run]
  rw [hc]

/-- A command that leaves the host's list alone leaves it alone in every lifecycle. -/
theorem whenWriterLive_pending {k : State → State} (hk : ∀ s, (k s).pending = s.pending) (s : State) :
    (whenWriterLive k s).pending = s.pending := by
  rcases whenWriterLive_cases k s with ⟨-, e⟩ | ⟨-, e⟩ <;> simp [e, hk]

theorem whenReassemblerLive_pending {g k : State → State} (hg : ∀ s, (g s).pending = s.pending)
    (hk : ∀ s, (k s).pending = s.pending) (s : State) : (whenReassemblerLive g k s).pending = s.pending := by
  rcases whenReassemblerLive_cases g k s with ⟨-, e⟩ | ⟨-, e⟩ | ⟨-, e⟩ <;> simp [e, hk, hg]

theorem writerCommand_pending {k : State → State} {s t : State} (h : writerCommand k s = .next t)
    (hk : ∀ s, (k s).pending = s.pending) : t.pending = s.pending := by
  obtain ⟨-, rfl⟩ := writerCommand_eq_next.1 h
  exact hk s

theorem reassemblerCommand_pending {k : State → State} {s t : State} (h : reassemblerCommand k s = .next t)
    (hk : ∀ s, (k s).pending = s.pending) : t.pending = s.pending := by
  obtain ⟨-, rfl⟩ := reassemblerCommand_eq_next.1 h
  exact hk s

theorem writeHeader_pending (f : Bool) (len : Half) (s : State) : (writeHeader f len s).pending = s.pending := by
  rcases writeHeader_cases f len s with ⟨-, e⟩ | ⟨-, -, e⟩ | ⟨-, -, e⟩ <;> rw [e] <;> rfl

theorem receive_pending (s : State) : (receive s).pending = s.pending := by
  rcases receive_cases s with ⟨_, -, e⟩ | ⟨_, -, -, e⟩ | ⟨_, _, _, _, -, -, -, e⟩ |
    ⟨_, _, _, _, _, _, -, -, -, -, -, e⟩ <;> rw [e] <;> rfl

theorem readBuffer_pending (addr : Word) (s : State) : (readBuffer addr s).pending = s.pending := by
  rcases readBuffer_cases addr s with ⟨-, e⟩ | ⟨_, _, -, e⟩ <;> rw [e] <;> rfl

/-- No command touches what the host has still to issue. -/
theorem exec_pending {i : Instr} {s t : State} (h : exec i s = .next t) : t.pending = s.pending := by
  cases i with
  | wInit => rw [exec, execWInit] at h; exact writerCommand_pending h fun _ => rfl
  | wAdvseq => rw [exec, execWAdvseq] at h; exact writerCommand_pending h (whenWriterLive_pending fun _ => rfl)
  | wWrhdr f len =>
    rw [exec, execWWrhdr] at h
    exact writerCommand_pending h (whenWriterLive_pending (writeHeader_pending f len))
  | rInit =>
    rw [exec, execRInit] at h
    exact reassemblerCommand_pending h fun s => by cases hl : s.r.life <;> rfl
  | rDestroy =>
    rw [exec, execRDestroy] at h
    exact reassemblerCommand_pending h fun s => by cases hl : s.r.life <;> rfl
  | rReset =>
    rw [exec, execRReset] at h
    exact reassemblerCommand_pending h (whenReassemblerLive_pending (fun _ => rfl) fun _ => rfl)
  | rIscomplete =>
    rw [exec, execRIscomplete] at h
    exact reassemblerCommand_pending h (whenReassemblerLive_pending (fun _ => rfl) fun _ => rfl)
  | rReceive =>
    rw [exec, execRReceive] at h
    exact reassemblerCommand_pending h (whenReassemblerLive_pending (fun _ => rfl) receive_pending)
  | rRdcount =>
    rw [exec, execRRdcount] at h
    exact reassemblerCommand_pending h (whenReassemblerLive_pending (fun _ => rfl) fun _ => rfl)
  | rRdbuf addr =>
    rw [exec, execRRdbuf] at h
    exact reassemblerCommand_pending h (whenReassemblerLive_pending (fun _ => rfl) (readBuffer_pending addr))

/-- Every step takes one event off the host's list. -/
theorem step_pending {s t : State} (h : step s = .next t) : t.pending = s.pending.tail := by
  rcases step_cases h with ⟨hp, rfl⟩ | ⟨rest, hp, rfl⟩ | ⟨c, rest, e, hp, -, -, rfl⟩ | ⟨c, rest, i, hp, -, -, he⟩
  · simp [hp]
  · simp [hp]
  · simp [hp]
  · simp [hp, exec_pending he]

/-- With nothing to issue the state persists, for any number of steps (60_exceptions.md R198). -/
theorem runSteps_idle {s : State} (h : s.pending = []) (n : Nat) : runSteps n s = .next s := by
  induction n with
  | zero => rfl
  | succ n ih => rw [runSteps_succ (t := s) (by simp [step, h]), ih]

/-- A run that goes on answers a next state first. -/
theorem runSteps_succ_eq_next {n : Nat} {s t : State} (h : runSteps (n + 1) s = .next t) :
    ∃ u, step s = .next u ∧ runSteps n u = .next t := by
  have e : Host.Core.step Sys2Proof.core s = step s := rfl
  simp only [runSteps, Host.Core.run] at h
  rw [e] at h
  cases hs : step s with
  | next u => rw [hs] at h; exact ⟨u, rfl, h⟩
  | fault r => rw [hs] at h; cases h
  | refused r => rw [hs] at h; cases h

/-- The end of a run answers a next state exactly when no unit is faulted (60_exceptions.md R186). -/
theorem endOfRun_eq_next {s t : State} : endOfRun s = .next t ↔ NotFaulted s ∧ t = s := by
  unfold endOfRun NotFaulted
  cases s.w.fault <;> cases s.r.fault <;> simp [eq_comm]

/-- A whole run ends where its last step does, in a state in which no unit is faulted (60_exceptions.md R186). -/
theorem runToEnd_eq_next {s t : State} :
    runToEnd s = .next t ↔ runSteps s.pending.length s = .next t ∧ NotFaulted t := by
  unfold runToEnd
  cases runSteps s.pending.length s with
  | next u =>
    rw [endOfRun_eq_next]
    constructor
    · rintro ⟨h, rfl⟩; exact ⟨rfl, h⟩
    · rintro ⟨h, hf⟩; cases h; exact ⟨hf, rfl⟩
  | fault r => simp
  | refused r => simp

end Sys2Proof.Machine
end

