-- ==== Sys2Proof/Tests/Slice0.lean ====
section
/-! SUPPORT. Tests on the spec's own vectors (95_test_vectors.md; the ids L1-2, W-5, RX-8, … are its own), and a witness for the
hypotheses of every statement that has some. -/

namespace Sys2Proof.Tests

open Sys2Proof Sys2Proof.Machine

/-! ## Small states -/

/-- Parameters with R9's defaults and a capacity of 10. -/
def p10 : Params := ⟨.big, 10, .error, .full⟩

def writer (seq : Half) (part : BitVec 8) : Writer := ⟨.live, seq, part, .none⟩

def regs (expSeq : Half) (expPart : BitVec 8) (recv complete : Bool) (count : Word) (buf : Memory) : Reassembler :=
  ⟨.live, expSeq, expPart, recv, complete, count, buf, .none⟩

/-- Bytes 0 to n-1 in cells 0 to n-1. -/
def bytes (n : Nat) : Memory := (List.range n).map fun k => (k, BitVec.ofNat 8 k)

/-- State `S8` of 95_test_vectors.md 2.5. -/
def s8 : Reassembler := regs 1 2 true false 8 (bytes 8)

/-- State `C10` of 95_test_vectors.md 2.5. -/
def c10 : Reassembler := regs 1 0 false true 10 (bytes 10)

/-- A block with operand streams and nothing else on its interface. -/
def block (p : Params) (w : Writer) (r : Reassembler) (data : List Byte) (cap : Nat) : State :=
  { params := p, w := w, r := r, inp := ⟨data, 0⟩, out := ⟨[], cap⟩, responses := [], pending := [], draws := 0 }

def nextOf : Host.Outcome State Fault Refusal → Option State
  | .next s => some s
  | .fault _ => none
  | .refused _ => none

/-- The status and the value of the newest response. -/
def answer (s : State) : Option (Status × Word) := s.responses.head?.map fun r => (r.status, r.value)

/-! ## Ill-formed terms are refused -/

theorem test_wf_address_of_25_bits : (Instr.rRdbuf 0x01000000#32).wf = false := by decide

theorem test_wf_address_of_24_bits : (Instr.rRdbuf 0x00FFFFFF#32).wf = true := by decide

theorem test_wf_position_past_the_data : ¬ InStream.wf ⟨[1#8], 2⟩ := by decide

theorem test_step_refuses_a_malformed_operand :
    step { block p10 (writer 0 0) s8 [] 0 with pending := [.command ⟨0x15000000#32, ⟨[], 1⟩, ⟨[], 0⟩⟩] } =
      .refused .malformedInputOperand := rfl

/-! ## Decoding: 95_test_vectors.md 2.2 -/

theorem test_decode_format_N :
    [0x01000000#32, 0x02000000#32, 0x11000000#32, 0x12000000#32, 0x13000000#32, 0x14000000#32, 0x15000000#32,
      0x16000000#32].map (fun c => (decode c).toOption) =
    [some .wInit, some .wAdvseq, some .rInit, some .rDestroy, some .rReset, some .rIscomplete, some .rReceive,
      some .rRdcount] := by decide

theorem test_decode_format_H :
    (decode 0x03010002#32).toOption = some (.wWrhdr true 2#16) ∧
    (decode 0x0301FFFF#32).toOption = some (.wWrhdr true 0xFFFF#16) ∧
    (decode 0x03000100#32).toOption = some (.wWrhdr false 256#16) := by decide

theorem test_decode_format_A :
    (decode 0x17000009#32).toOption = some (.rRdbuf 9#32) ∧
    (decode 0x17FFFFFF#32).toOption = some (.rRdbuf 0x00FFFFFF#32) := by decide

theorem test_decode_illegal :
    [0x03020000#32, 0x15000001#32, 0x00000000#32, 0x18000000#32, 0x10000000#32, 0x04000000#32].map
      (fun c => (decode c).toOption) = [none, none, none, none, none, none] := by decide

theorem test_encode_words :
    encode (.wWrhdr true 2#16) = 0x03010002#32 ∧ encode (.rRdbuf 9#32) = 0x17000009#32 ∧
    encode .rReceive = 0x15000000#32 := by decide

theorem test_table_word_runs_first_after_reset :
    decodeTableWord 32 0x01000000 = some .wInit ∧
    (nextOf (step (State.reset.withFetchWord 32 0x01000000))).map answer = some (some (.ok, 0)) := ⟨by decide, rfl⟩

/-! ## Header codec: 95_test_vectors.md L1-1 and 2.1 -/

theorem test_part_final_byte :
    [0x00#8, 0x01#8, 0x7F#8, 0x80#8, 0x82#8, 0xFF#8].map (fun b => ((partOf b).toNat, isFinalOf b)) =
    [(0, false), (1, false), (127, false), (0, true), (2, true), (127, true)] := by decide

theorem test_header_bytes :
    encodeHeader .big 0xABCD#16 0x85#8 0xFFFF#16 = [0xAB#8, 0xCD#8, 0x85#8, 0xFF#8, 0xFF#8] ∧
    encodeHeader .little 0x0102#16 0x7F#8 0x0304#16 = [0x02#8, 0x01#8, 0x7F#8, 0x04#8, 0x03#8] := by decide

theorem test_cross_order_decode :
    decodeHeader .little 0xAB#8 0xCD#8 0x85#8 0xFF#8 0xFF#8 = ⟨0xCDAB#16, 5#7, true, 0xFFFF#16⟩ := by decide

/-! ## Writer family: 95_test_vectors.md 2.3 -/

theorem test_wInit_W14 :
    (nextOf (exec .wInit (block p10 (writer 5 4) .powerOn [] 0))).map (fun t => (t.w, answer t)) =
      some (writer 0 0, some (.ok, 0)) := by decide

theorem test_wAdvseq_wraps_W4 :
    (nextOf (exec .wAdvseq (block p10 (writer 0xFFFF 9) .powerOn [] 0))).map (fun t => (t.w, answer t)) =
      some (writer 0 0, some (.ok, 0)) := by decide

theorem test_wAdvseq_before_init_W1 :
    (nextOf (exec .wAdvseq (block p10 .powerOn .powerOn [] 0))).map (fun t => (t.w.fault, t.w.life, answer t)) =
      some (.useBeforeInit, .uninit, some (.fault, 1)) := by decide

theorem test_wWrhdr_W5 :
    (nextOf (exec (.wWrhdr true 2#16) (block p10 (writer 1 2) .powerOn [] 5))).map (fun t => (t.w, t.out, answer t)) =
      some (writer 1 3, ⟨[0x00#8, 0x01#8, 0x82#8, 0x00#8, 0x02#8], 0⟩, some (.ok, 0)) := by decide

theorem test_wWrhdr_source_wrap_W12 :
    (nextOf (exec (.wWrhdr false 0#16) (block ⟨.big, 10, .sourceWrap, .full⟩ (writer 1 255) .powerOn [] 5))).map
      (fun t => (t.w, t.out, answer t)) =
      some (writer 1 0, ⟨[0x00#8, 0x01#8, 0xFF#8, 0x00#8, 0x00#8], 0⟩, some (.ok, 0)) := by decide

/-! ## Reassembler lifecycle and readout: 95_test_vectors.md 2.4 -/

theorem test_rInit_after_destroy_L7 :
    (nextOf (exec .rInit (block p10 .powerOn { c10 with life := .destroyed } [] 0))).map (fun t => (t.r, answer t)) =
      some (regs 0 0 false false 0 [], some (.ok, 0)) := by decide

theorem test_rInit_while_live_L3 :
    (nextOf (exec .rInit (block p10 .powerOn s8 [] 0))).map (fun t => (t.r, answer t)) =
      some ({ s8 with fault := .initWhileLive }, some (.fault, 4)) := by decide

theorem test_rDestroy_L4 :
    (nextOf (exec .rDestroy (block p10 .powerOn s8 [] 0))).map (fun t => (t.r.life, t.r.buf, answer t)) =
      some (.destroyed, [], some (.ok, 0)) := by decide

theorem test_rDestroy_twice_L5 :
    (nextOf (exec .rDestroy (block p10 .powerOn { s8 with life := .destroyed } [] 0))).map
      (fun t => (t.r.fault, answer t)) = some (.doubleDestroy, some (.fault, 3)) := by decide

theorem test_rReset_L8 :
    (nextOf (exec .rReset (block p10 .powerOn s8 [] 0))).map (fun t => (t.r, answer t)) =
      some (regs 1 0 false false 0 (bytes 8), some (.ok, 0)) := by decide

theorem test_rIscomplete_L9 :
    (nextOf (exec .rIscomplete (block p10 .powerOn c10 [] 0))).map (fun t => (t.r, answer t)) =
      some (c10, some (.ok, 1)) := by decide

theorem test_rIscomplete_destroyed_L6 :
    (nextOf (exec .rIscomplete (block p10 .powerOn { c10 with life := .destroyed } [] 0))).map
      (fun t => (t.r.fault, answer t)) = some (.useAfterDestroy, some (.fault, 2)) := by decide

theorem test_rRdcount_L10 :
    (nextOf (exec .rRdcount (block p10 .powerOn c10 [] 0))).map (fun t => (t.r, answer t)) =
      some (c10, some (.ok, 10)) := by decide

theorem test_rRdbuf_L11 :
    (nextOf (exec (.rRdbuf 9#32) (block p10 .powerOn c10 [] 0))).map answer = some (some (.ok, 9)) := by decide

theorem test_rRdbuf_out_of_range_L12 :
    (nextOf (exec (.rRdbuf 10#32) (block p10 .powerOn c10 [] 0))).map answer =
      some (some (.addressOutOfRange, 0)) := by decide

/-- The last two commands of P3 (95_test_vectors.md 3), the first already done: the end is a faulted state, which is never
final. -/
def p3End : State :=
  { block p10 .powerOn { s8 with life := .destroyed } [] 0 with
    pending := [.command ⟨0x12000000#32, ⟨[], 0⟩, ⟨[], 0⟩⟩] }

theorem test_run_end_in_a_faulted_state_P3 :
    (nextOf (runSteps 1 p3End)).map (fun t => (t.pending, t.r.fault)) = some ([], .doubleDestroy) ∧
    (∃ t, runSteps 1 p3End = .next t ∧ ¬ IsFinal t) ∧ runToEnd p3End = .fault .reassemblerFaulted :=
  ⟨by decide, ⟨_, rfl, by simp only [IsFinal, NotFaulted]; decide⟩, rfl⟩

/-! ## Receive family: 95_test_vectors.md 2.5 -/

/-- The datagram of RX-8: a part 0 of the completed sequence. -/
def rx8 : List Byte := [0x00#8, 0x01#8, 0x00#8, 0x00#8, 0x02#8, 0xC0#8, 0xC1#8]

/-- The datagram of RX-11: a start whose 11 bytes do not fit. -/
def rx11 : List Byte := [0x00#8, 0x09#8, 0x00#8, 0x00#8, 0x0B#8] ++ List.replicate 11 0xEE#8

theorem test_rReceive_start_in_complete_RX8 :
    (nextOf (exec .rReceive (block p10 .powerOn c10 rx8 0))).map
      (fun t => (t.r, t.inp.pos, answer t)) =
      some (regs 1 1 true true 2 ((0, 0xC0#8) :: (1, 0xC1#8) :: (bytes 10).drop 2), 7, some (.ok, 0)) := by decide

theorem test_rReceive_start_beyond_capacity_RX11 :
    (nextOf (exec .rReceive (block p10 .powerOn s8 rx11 0))).map (fun t => (t.r, answer t)) =
      some (s8, some (.capacityExceeded, 0)) := by decide

/-! ## Witnesses for the hypotheses of the statements -/

theorem witness_wf_commands : (Instr.rRdbuf 0x00FFFFFF#32).wf = true ∧ (Instr.wWrhdr true 0xFFFF#16).wf = true := by decide

theorem witness_legal_word : decode 0x17FFFFFF#32 = .ok (.rRdbuf 0x00FFFFFF#32) := by decide

theorem witness_matching_row_and_no_row :
    (⟨0x03000000#32, 0xFFFE0000#32⟩ : OpcodeRow) ∈ opcodeRows ∧
    OpcodeRow.matches ⟨0x03000000#32, 0xFFFE0000#32⟩ 0x0301FFFF#32 = true ∧
    ∀ row ∈ opcodeRows, row.matches 0x03020000#32 = false := by decide

/-- Illegal words on each boundary of R96, and that their legal neighbours are none. -/
theorem witness_illegal_words :
    IllegalWord 0x00FFFFFF#32 ∧ IllegalWord 0x04000000#32 ∧ IllegalWord 0x10000000#32 ∧ IllegalWord 0x18000000#32 ∧
    IllegalWord 0x01000001#32 ∧ IllegalWord 0x16800000#32 ∧ IllegalWord 0x03020000#32 ∧
    ¬ IllegalWord 0x0301FFFF#32 ∧ ¬ IllegalWord 0x17FFFFFF#32 ∧ ¬ IllegalWord 0x11000000#32 := by
  simp only [IllegalWord]
  refine ⟨?_, ?_, ?_, ?_, ?_, ?_, ?_, ?_, ?_, ?_⟩ <;> decide

/-- A block that has a command to run. -/
def issuing (c : Command) : State := { block p10 (writer 1 2) s8 [] 0 with pending := [.command c] }

theorem witness_step_of_a_command :
    (issuing ⟨0x15000000#32, ⟨rx8, 7⟩, ⟨[], 0⟩⟩).pending = [.command ⟨0x15000000#32, ⟨rx8, 7⟩, ⟨[], 0⟩⟩] ∧
    (⟨rx8, 7⟩ : InStream).pos ≤ rx8.length ∧ decode 0x15000000#32 = .ok .rReceive := by decide

theorem witness_step_of_an_illegal_word :
    (issuing ⟨0x03020000#32, ⟨[], 0⟩, ⟨[], 0⟩⟩).pending = [.command ⟨0x03020000#32, ⟨[], 0⟩, ⟨[], 0⟩⟩] ∧
    (⟨[], 0⟩ : InStream).pos ≤ ([] : List Byte).length := by decide

theorem witness_header_part : (127#8).toNat < 128 ∧ (0#8).toNat < 128 := by decide

theorem witness_reads :
    (⟨[0xAA#8, 0xBB#8, 0xCC#8], 1⟩ : InStream).data.drop 1 = 0xBB#8 :: [0xCC#8] ∧
    (⟨[0xAA#8, 0xBB#8, 0xCC#8], 1⟩ : InStream).data.drop 1 = 0xBB#8 :: 0xCC#8 :: [] ∧
    (⟨[0xAA#8, 0xBB#8, 0xCC#8], 1⟩ : InStream).data.drop 1 = [0xBB#8, 0xCC#8] ++ [] ∧ [0xBB#8, 0xCC#8].length = 2 := by decide

theorem witness_writes :
    1 ≤ (⟨[], 1⟩ : OutStream).cap ∧ (⟨[], 0⟩ : OutStream).cap < 1 ∧ 2 ≤ (⟨[], 2⟩ : OutStream).cap ∧
    (⟨[], 1⟩ : OutStream).cap < 2 := by decide

theorem witness_nothing_pending : (block p10 (writer 0 0) s8 [] 0).pending = [] := rfl

theorem witness_reset_asserted :
    { block p10 (writer 0 0) s8 [] 0 with pending := [.assertReset] }.pending = .assertReset :: [] := rfl

theorem witness_writer_not_faulted :
    (writer 1 2).fault = .none ∧ (writer 1 2).life = .live ∧ Writer.powerOn.fault = .none ∧ Writer.powerOn.life = .uninit := by
  decide

/-- Header written: at part 127 under `ERROR`, at part 255 under `SOURCE_WRAP`, with exactly five bytes of room. -/
theorem witness_wWrhdr_ok :
    (let s := block p10 (writer 1 127) s8 [] 5
     s.w.fault = .none ∧ s.w.life = .live ∧ 5 ≤ s.out.cap ∧ (s.params.overflowMode = .error → s.w.part.toNat < 128)) ∧
    (let s := block ⟨.big, 10, .sourceWrap, .full⟩ (writer 1 255) s8 [] 5
     s.w.fault = .none ∧ s.w.life = .live ∧ 5 ≤ s.out.cap ∧ (s.params.overflowMode = .error → s.w.part.toNat < 128)) := by
  decide

theorem witness_wWrhdr_part_overflow :
    let s := block p10 (writer 1 128) s8 [] 0
    s.w.fault = .none ∧ s.w.life = .live ∧ s.params.overflowMode = .error ∧ 128 ≤ s.w.part.toNat := by decide

theorem witness_wWrhdr_stream_overflow :
    let s := block p10 (writer 1 127) s8 [] 4
    s.w.fault = .none ∧ s.w.life = .live ∧ s.out.cap < 5 ∧ (s.params.overflowMode = .error → s.w.part.toNat < 128) := by
  decide

/-- The payload lengths of L1-2. -/
def lens3 : List Half := [4, 4, 2]

theorem witness_blob_headers :
    let s := { block p10 (writer 0 0) s8 [] 0 with
      pending := .command ⟨encode .wAdvseq, ⟨[], 0⟩, ⟨[], 0⟩⟩ :: (headerCommands lens3 ++ []) }
    s.w.fault = .none ∧ s.w.life = .live ∧ 1 ≤ lens3.length ∧ lens3.length ≤ 128 ∧
    s.pending = .command ⟨encode .wAdvseq, ⟨[], 0⟩, ⟨[], 0⟩⟩ :: (headerCommands lens3 ++ []) :=
  ⟨rfl, rfl, by decide, by decide, rfl⟩

theorem witness_reassembler_lifecycles :
    s8.fault = .none ∧ s8.life = .live ∧ Reassembler.powerOn.fault = .none ∧ Reassembler.powerOn.life ≠ .live ∧
    Reassembler.powerOn.life = .uninit ∧ ({ s8 with life := .destroyed } : Reassembler).life = .destroyed ∧
    ({ s8 with life := .destroyed } : Reassembler).fault = .none := by decide

/-- The last cell, an `unknown` cell and the first address past the capacity. -/
theorem witness_rRdbuf :
    (9#32).toNat < p10.maxOctetCount.val ∧ c10.buf.read (9#32).toNat = some 9#8 ∧
    s8.buf.read (8#32).toNat = none ∧ p10.maxOctetCount.val ≤ (10#32).toNat ∧
    0x17000009#32 &&& 0xFF000000#32 = 0x17000000#32 := by decide

/-- Every row of the table of lifecycle faults. -/
theorem witness_lifecycle_faults :
    isWriterCommand .rReceive = false ∧ Instr.rReceive ≠ .rInit ∧ Instr.rReceive ≠ .rDestroy ∧
    Reassembler.powerOn.life = .uninit ∧ ({ s8 with life := .destroyed } : Reassembler).life = .destroyed ∧
    s8.life = .live := by decide

theorem witness_faulted_units :
    isWriterCommand .wInit = true ∧ ({ writer 0 0 with fault := .useBeforeInit } : Writer).fault ≠ .none ∧
    isWriterCommand .rInit = false ∧ ({ s8 with fault := .initWhileLive } : Reassembler).fault ≠ .none := by decide

theorem witness_short_prefix :
    let s := block p10 .powerOn s8 [0x00#8, 0x01#8] 0
    s.r.fault = .none ∧ s.r.life = .live ∧ s.inp.pos ≤ s.inp.data.length ∧ s.inp.data.length - s.inp.pos < 3 := by decide

/-- RX-14 under `PREFIX`, and RX-4 under `FULL`: ignored by step 4. -/
theorem witness_ignored :
    (∃ seq part fin rest, PrefixAt (block ⟨.big, 10, .error, .prefixOnly⟩ .powerOn s8 [0x00#8, 0x01#8, 0x05#8] 0)
      seq part fin rest ∧ IsIgnored s8 seq part) ∧
    (∃ h rest, HeaderAt (block p10 .powerOn s8 [0x00#8, 0x01#8, 0x01#8, 0x00#8, 0x01#8, 0x04#8] 0) h rest ∧
      IsIgnored s8 h.seq h.part ∧ h.len.toNat ≤ rest.length) := by
  refine ⟨⟨1, 5, false, [], ⟨_, _, _, rfl, rfl, rfl, rfl⟩, .inr (by decide)⟩, ?_⟩
  exact ⟨⟨1, 1, false, 1⟩, [0x04#8], ⟨_, _, _, _, _, rfl, rfl⟩, .inr (by decide), by decide⟩

/-- RX-7: another sequence's part 1, ignored by step 3. -/
theorem witness_ignored_by_step3 : IsIgnored s8 2 1 := .inl (by decide)

/-- RX-14 under `FULL`: no length; and an ignored fragment whose one payload byte is missing. -/
theorem witness_ignored_truncated :
    (∃ seq part fin rest, PrefixAt (block p10 .powerOn s8 [0x00#8, 0x01#8, 0x05#8] 0) seq part fin rest ∧
      IsIgnored s8 seq part ∧ rest.length < 2) ∧
    (∃ h rest, HeaderAt (block p10 .powerOn s8 [0x00#8, 0x01#8, 0x05#8, 0x00#8, 0x01#8] 0) h rest ∧
      IsIgnored s8 h.seq h.part ∧ rest.length < h.len.toNat) := by
  refine ⟨⟨1, 5, false, [], ⟨_, _, _, rfl, rfl, rfl, rfl⟩, .inr (by decide), by decide⟩, ?_⟩
  exact ⟨⟨1, 5, false, 1⟩, [], ⟨_, _, _, _, _, rfl, rfl⟩, .inr (by decide), by decide⟩

/-- RX-3: the expected part, filling the buffer exactly. -/
theorem witness_accepted_continue :
    (∃ h, HeaderAt (block p10 .powerOn s8 [0x00#8, 0x01#8, 0x02#8, 0x00#8, 0x02#8, 0x08#8, 0x09#8] 0) h
      ([0x08#8, 0x09#8] ++ []) ∧ [0x08#8, 0x09#8].length = h.len.toNat ∧ SelectedAt s8 h.seq h.part 8 ∧
      8 + h.len.toNat ≤ p10.maxOctetCount.val) := by
  refine ⟨⟨1, 2, false, 2⟩, ⟨_, _, _, _, _, rfl, rfl⟩, by decide, .inr ⟨?_, by decide⟩, by decide⟩
  simp only [Continues]
  decide

/-- RX-8: a start. -/
theorem witness_accepted_start :
    (∃ h, HeaderAt (block p10 .powerOn c10 rx8 0) h ([0xC0#8, 0xC1#8] ++ []) ∧
      [0xC0#8, 0xC1#8].length = h.len.toNat ∧ SelectedAt c10 h.seq h.part 0 ∧
      0 + h.len.toNat ≤ p10.maxOctetCount.val) := by
  refine ⟨⟨1, 0, false, 2⟩, ⟨_, _, _, _, _, rfl, rfl⟩, by decide, .inl ⟨?_, rfl⟩, by decide⟩
  simp only [Starts]
  decide

/-- RX-10: one byte more than the capacity. -/
theorem witness_beyond_capacity :
    ∃ h rest, HeaderAt (block p10 .powerOn s8 [0x00#8, 0x01#8, 0x82#8, 0x00#8, 0x03#8] 0) h rest ∧
      SelectedAt s8 h.seq h.part 8 ∧ p10.maxOctetCount.val < 8 + h.len.toNat := by
  refine ⟨⟨1, 2, true, 3⟩, [], ⟨_, _, _, _, _, rfl, rfl⟩, .inr ⟨?_, by decide⟩, by decide⟩
  simp only [Continues]
  decide

/-- RX-13: no length; and RX-15: a truncated payload. -/
theorem witness_selected_truncated :
    (∃ seq part fin rest, PrefixAt (block p10 .powerOn s8 [0x00#8, 0x01#8, 0x02#8] 0) seq part fin rest ∧
      SelectedAt s8 seq part 8 ∧ rest.length < 2) ∧
    (∃ h rest, HeaderAt (block p10 .powerOn s8 [0x00#8, 0x01#8, 0x02#8, 0x00#8, 0x02#8, 0x08#8] 0) h rest ∧
      SelectedAt s8 h.seq h.part 8 ∧ 8 + h.len.toNat ≤ p10.maxOctetCount.val ∧ rest.length < h.len.toNat) := by
  have hc : Continues s8 1 2 := by
    simp only [Continues]
    decide
  refine ⟨⟨1, 2, false, [], ⟨_, _, _, rfl, rfl, rfl, rfl⟩, .inr ⟨hc, by decide⟩, by decide⟩, ?_⟩
  exact ⟨⟨1, 2, false, 2⟩, [0x08#8], ⟨_, _, _, _, _, rfl, rfl⟩, .inr ⟨hc, by decide⟩, by decide, by decide⟩

/-- RX-12 and RX-11: both failing statuses occur. -/
theorem witness_failed_receives :
    (nextOf (exec .rReceive (block p10 .powerOn s8 [0x00#8, 0x01#8] 0))).map answer = some (some (.streamUnderflow, 0)) ∧
    (nextOf (exec .rReceive (block p10 .powerOn s8 rx11 0))).map answer = some (some (.capacityExceeded, 0)) := by decide

/-- RX-15 stores to cells 8 and 9 only. -/
theorem witness_target_cells :
    targetCells (block p10 .powerOn s8 [0x00#8, 0x01#8, 0x02#8, 0x00#8, 0x02#8, 0x08#8] 0) = some (8, 2) := by decide

/-- The slices of L1-2. -/
def slices3 : List (List Byte) := [[0x00#8, 0x01#8, 0x02#8, 0x03#8], [0x04#8, 0x05#8, 0x06#8, 0x07#8], [0x08#8, 0x09#8]]

/-- L1-2: the headers of the blob are those of the spec's table. -/
theorem test_blob_datagrams_L1_2 :
    blobDatagrams .big 1 slices3 =
      [[0x00#8, 0x01#8, 0x00#8, 0x00#8, 0x04#8, 0x00#8, 0x01#8, 0x02#8, 0x03#8],
       [0x00#8, 0x01#8, 0x01#8, 0x00#8, 0x04#8, 0x04#8, 0x05#8, 0x06#8, 0x07#8],
       [0x00#8, 0x01#8, 0x82#8, 0x00#8, 0x02#8, 0x08#8, 0x09#8]] := by decide

theorem witness_blob_round_trip :
    let s := { block p10 (writer 0 0) (regs 0 0 false false 0 []) [] 0 with
      pending := receiveCommands (blobDatagrams .big 1 slices3) ++ [] }
    s.r.fault = .none ∧ s.r.life = .live ∧ ((1 : Half) ≠ s.r.expSeq ∨ s.r.recv = false) ∧
    1 ≤ slices3.length ∧ slices3.length ≤ 128 ∧ (∀ b ∈ slices3, b.length < 2 ^ 16) ∧
    slices3.flatten.length ≤ s.params.maxOctetCount.val ∧
    s.pending = receiveCommands (blobDatagrams s.params.byteOrder 1 slices3) ++ [] :=
  ⟨rfl, rfl, .inr rfl, by decide, by decide, by decide, by decide, rfl⟩

/-- A state in the middle of a sequence meets the invariant. -/
theorem witness_invariant : Inv (block p10 (writer 1 128) s8 rx8 0) where
  buffer := by
    simp only [BufferOk]
    decide
  counters := by
    simp only [CountersOk]
    decide
  part := by
    simp only [PartOk]
    decide
  stream := by decide

theorem witness_step_answers_next :
    (nextOf (step (issuing ⟨0x13000000#32, ⟨[], 0⟩, ⟨[], 0⟩⟩))).map (fun t => (t.r.recv, t.pending)) = some (false, []) := by
  decide

/-- `R.complete` changes over an accepted final fragment. -/
theorem witness_complete_changes :
    (nextOf (step (issuing ⟨0x15000000#32, ⟨[0x00#8, 0x01#8, 0x82#8, 0x00#8, 0x00#8], 0⟩, ⟨[], 0⟩⟩))).map
      (fun t => (t.r.complete, s8.complete)) = some (true, false) := by decide

/-- Each of the three statuses that write nothing is answered somewhere. -/
theorem witness_rejecting_statuses :
    (nextOf (step { issuing ⟨0x03000001#32, ⟨[], 0⟩, ⟨[], 9⟩⟩ with w := writer 1 128 })).map answer =
      some (some (.partOverflow, 0)) ∧
    (nextOf (step (issuing ⟨0x15000001#32, ⟨[], 0⟩, ⟨[], 0⟩⟩))).map answer = some (some (.illegalCommand, 0)) ∧
    (nextOf (step (issuing ⟨0x1700000A#32, ⟨[], 0⟩, ⟨[], 0⟩⟩))).map answer = some (some (.addressOutOfRange, 0)) := by
  decide

/-- A run that ends (P1's command 10 as its last), a faulted state with nothing to issue for each unit, and one with the other
unit's command still to come. -/
theorem witness_final_and_faulted_states :
    (let s := issuing ⟨0x14000000#32, ⟨[], 0⟩, ⟨[], 0⟩⟩
     ∃ t, runToEnd s = .next t ∧ runSteps 1 s = .next t ∧ IsFinal t) ∧
    (let s := block p10 { writer 0 0 with fault := .useBeforeInit } s8 [] 0
     s.pending = [] ∧ s.w.fault ≠ .none) ∧
    (let s := block p10 (writer 0 0) { s8 with fault := .initWhileLive } [] 0
     s.pending = [] ∧ s.w.fault = .none ∧ s.r.fault ≠ .none) ∧
    (let s := { issuing ⟨0x14000000#32, ⟨[], 0⟩, ⟨[], 0⟩⟩ with w := { writer 0 0 with fault := .useBeforeInit } }
     (s.w.fault ≠ .none ∨ s.r.fault ≠ .none) ∧ HostEvent.assertReset ∉ s.pending ∧ ∃ t, runSteps 1 s = .next t) := by
  refine ⟨⟨_, rfl, rfl, by simp only [IsFinal, NotFaulted]; decide⟩, by decide, by decide, .inl (by decide), by decide, ⟨_, rfl⟩⟩

end Sys2Proof.Tests
end

/-! PROOFS of the obligations of 10_state.md: what a command of one unit shares with the other unit (R20), what every
answered command leaves of the interface (R21, R38), and what writes `R.complete` (R30). -/

namespace Sys2Proof.Machine

/-! ## A command body that does not look at the other unit (10_state.md R20) -/

/-- `k` neither reads nor writes the Reassembler: replacing its registers before or after `k` is the same. -/
def IgnoresReassembler (k : State → State) : Prop :=
  ∀ (s : State) (r' : Reassembler), k { s with r := r' } = { k s with r := r' }

/-- `k` neither reads nor writes the Writer. -/
def IgnoresWriter (k : State → State) : Prop :=
  ∀ (s : State) (w' : Writer), k { s with w := w' } = { k s with w := w' }

/-- Replacing registers by themselves shows that what is ignored is also kept. -/
theorem IgnoresReassembler.keeps_r {k : State → State} (hk : IgnoresReassembler k) (s : State) : (k s).r = s.r := by
  have h := congrArg State.r (hk s s.r)
  exact h

theorem IgnoresWriter.keeps_w {k : State → State} (hk : IgnoresWriter k) (s : State) : (k s).w = s.w := by
  have h := congrArg State.w (hk s s.w)
  exact h

theorem writerCommand_replace_r {k : State → State} (hk : IgnoresReassembler k) (s : State) (r' : Reassembler) :
    writerCommand k { s with r := r' } = mapNext (fun t => { t with r := r' }) (writerCommand k s) := by
  unfold writerCommand
  cases s.w.fault with
  | none => simp [mapNext, hk s r']
  | useBeforeInit => rfl

theorem reassemblerCommand_replace_w {k : State → State} (hk : IgnoresWriter k) (s : State) (w' : Writer) :
    reassemblerCommand k { s with w := w' } = mapNext (fun t => { t with w := w' }) (reassemblerCommand k s) := by
  unfold reassemblerCommand
  cases s.r.fault with
  | none => simp [mapNext, hk s w']
  | useBeforeInit | useAfterDestroy | doubleDestroy | initWhileLive => rfl

theorem ignoresReassembler_whenWriterLive {k : State → State} (hk : IgnoresReassembler k) :
    IgnoresReassembler (whenWriterLive k) := by
  intro s r'
  unfold whenWriterLive
  cases s.w.life with
  | uninit => rfl
  | live => exact hk s r'

theorem ignoresWriter_raiseReassemblerFault (f : ReassemblerFault) : IgnoresWriter (raiseReassemblerFault f) :=
  fun _ _ => rfl

theorem ignoresWriter_whenReassemblerLive {g k : State → State} (hg : IgnoresWriter g) (hk : IgnoresWriter k) :
    IgnoresWriter (whenReassemblerLive g k) := by
  intro s w'
  unfold whenReassemblerLive
  cases s.r.life with
  | uninit | destroyed => simp only [hg s w', ignoresWriter_raiseReassemblerFault _ (g s) w']
  | live => exact hk s w'

theorem ignoresReassembler_writeHeader (f : Bool) (len : Half) : IgnoresReassembler (writeHeader f len) := by
  intro s r'
  unfold writeHeader
  dsimp only
  split
  · rfl
  · split <;> rfl

theorem ignoresWriter_ignoreFragment (in2 : InStream) : IgnoresWriter (ignoreFragment in2) := by
  intro s w'
  unfold ignoreFragment
  dsimp only
  cases s.params.ignoreMode with
  | prefixOnly => rfl
  | full =>
    cases inReadU16 s.params.byteOrder in2 with
    | none => rfl
    | some q =>
      obtain ⟨len, in3⟩ := q
      dsimp only
      cases inSkip len.toNat in3 <;> rfl

theorem ignoresWriter_acceptFragment (t : Tentative) (fin : Bool) (in2 : InStream) :
    IgnoresWriter (acceptFragment t fin in2) := by
  intro s w'
  unfold acceptFragment
  dsimp only
  cases inReadU16 s.params.byteOrder in2 with
  | none => rfl
  | some q =>
    obtain ⟨len, in3⟩ := q
    dsimp only
    split
    · rfl
    · cases inReadOctets len.toNat in3 <;> rfl

theorem ignoresWriter_receive : IgnoresWriter receive := by
  intro s w'
  unfold receive
  dsimp only
  cases inReadU16 s.params.byteOrder s.inp with
  | none => rfl
  | some q1 =>
    obtain ⟨seq, in1⟩ := q1
    dsimp only
    cases inReadU8 in1 with
    | none => rfl
    | some q2 =>
      obtain ⟨b, in2⟩ := q2
      dsimp only
      cases selectFragment s.r seq (partOf b) with
      | none => exact ignoresWriter_ignoreFragment in2 s w'
      | some t => exact ignoresWriter_acceptFragment t (isFinalOf b) in2 s w'

theorem ignoresWriter_readBuffer (addr : Word) : IgnoresWriter (readBuffer addr) := by
  intro s w'
  unfold readBuffer memRead
  dsimp only
  split
  · rfl
  · cases s.r.buf.read addr.toNat <;> rfl

/-- A Writer command is a body that ignores the Reassembler, run when the Writer is not faulted. -/
theorem exec_eq_writerCommand {i : Instr} (hi : isWriterCommand i = true) :
    ∃ k, IgnoresReassembler k ∧ ∀ s, exec i s = writerCommand k s := by
  cases i with
  | wInit => exact ⟨_, fun _ _ => rfl, fun _ => rfl⟩
  | wAdvseq => exact ⟨_, ignoresReassembler_whenWriterLive fun _ _ => rfl, fun _ => rfl⟩
  | wWrhdr f len =>
    exact ⟨_, ignoresReassembler_whenWriterLive (ignoresReassembler_writeHeader f len), fun _ => rfl⟩
  | rInit | rDestroy | rReset | rIscomplete | rReceive | rRdcount | rRdbuf => cases hi

/-- A Reassembler command is a body that ignores the Writer, run when the Reassembler is not faulted. -/
theorem exec_eq_reassemblerCommand {i : Instr} (hi : isWriterCommand i = false) :
    ∃ k, IgnoresWriter k ∧ ∀ s, exec i s = reassemblerCommand k s := by
  have hid : IgnoresWriter id := fun _ _ => rfl
  cases i with
  | rInit => exact ⟨_, fun s _ => by dsimp only; cases s.r.life <;> rfl, fun _ => rfl⟩
  | rDestroy => exact ⟨_, fun s _ => by dsimp only; cases s.r.life <;> rfl, fun _ => rfl⟩
  | rReset | rIscomplete | rRdcount =>
    exact ⟨_, ignoresWriter_whenReassemblerLive hid fun _ _ => rfl, fun _ => rfl⟩
  | rReceive => exact ⟨_, ignoresWriter_whenReassemblerLive (fun _ _ => rfl) ignoresWriter_receive, fun _ => rfl⟩
  | rRdbuf addr => exact ⟨_, ignoresWriter_whenReassemblerLive hid (ignoresWriter_readBuffer addr), fun _ => rfl⟩
  | wInit | wAdvseq | wWrhdr => cases hi

/-- A Writer command that takes a step starts unfaulted and keeps the Reassembler. -/
theorem exec_writer_frame {i : Instr} {s t : State} (hi : isWriterCommand i = true) (h : exec i s = .next t) :
    s.w.fault = .none ∧ t.r = s.r := by
  obtain ⟨k, hk, hexec⟩ := exec_eq_writerCommand hi
  obtain ⟨hf, rfl⟩ := writerCommand_eq_next.1 (hexec s ▸ h)
  exact ⟨hf, hk.keeps_r s⟩

/-- A Reassembler command that takes a step starts unfaulted and keeps the Writer. -/
theorem exec_reassembler_frame {i : Instr} {s t : State} (hi : isWriterCommand i = false) (h : exec i s = .next t) :
    s.r.fault = .none ∧ t.w = s.w := by
  obtain ⟨k, hk, hexec⟩ := exec_eq_reassemblerCommand hi
  obtain ⟨hf, rfl⟩ := reassemblerCommand_eq_next.1 (hexec s ▸ h)
  exact ⟨hf, hk.keeps_w s⟩

/-- Settles O40: every command is a guarded body that ignores the other unit. -/
theorem unitsShareNoState : Obligations.UnitsShareNoState := by
  intro s i
  refine ⟨fun hi r' => ?_, fun hi w' => ?_⟩
  · obtain ⟨k, hk, hexec⟩ := exec_eq_writerCommand hi
    rw [hexec, hexec, writerCommand_replace_r hk]
  · obtain ⟨k, hk, hexec⟩ := exec_eq_reassemblerCommand hi
    rw [hexec, hexec, reassemblerCommand_replace_w hk]

/-! ## What every answered command leaves of the interface (10_state.md R21, R38) -/

/-- `u` has the parameters, the host's list, the responses and the input data of `s`. -/
structure InterfaceKept (s u : State) : Prop where
  params    : u.params = s.params
  pending   : u.pending = s.pending
  responses : u.responses = s.responses
  data      : u.inp.data = s.inp.data

/-- `t` is `s` after a command that gave one response, of value 0 unless its status is `OK` or `FAULT` (R38, 60_exceptions.md
R190). -/
def Answers (s t : State) : Prop :=
  ∃ st v u, InterfaceKept s u ∧ (st ≠ .ok → st ≠ .fault → v = 0) ∧ t = respond st v u

theorem Answers.params {s t : State} (h : Answers s t) : t.params = s.params := by
  obtain ⟨st, v, u, hu, -, rfl⟩ := h
  exact hu.params

/-- The response list after an answered command, in the terms of R38. -/
theorem Answers.response {s t : State} (h : Answers s t) :
    t.pending = s.pending ∧ ∃ rsp, t.responses = rsp :: s.responses ∧ rsp.inp = t.inp ∧ rsp.out = t.out ∧
      rsp.inp.data = s.inp.data ∧ (rsp.status ≠ .ok → rsp.status ≠ .fault → rsp.value = 0) := by
  obtain ⟨st, v, u, hu, hv, rfl⟩ := h
  exact ⟨hu.pending, _, by rw [respond_responses, hu.responses], rfl, rfl, hu.data, hv⟩

/-- An `OK` response may carry any value. -/
theorem answers_ok {s u : State} (v : Word) (hu : InterfaceKept s u) : Answers s (respond .ok v u) :=
  ⟨_, v, u, hu, fun h => absurd rfl h, rfl⟩

theorem answers_zero {s u : State} (st : Status) (hu : InterfaceKept s u) : Answers s (respond st 0 u) :=
  ⟨st, _, u, hu, fun _ _ => rfl, rfl⟩

theorem answers_raiseWriterFault (f : WriterFault) (s : State) : Answers s (raiseWriterFault f s) :=
  ⟨.fault, f.code, { s with w := { s.w with fault := f } }, ⟨rfl, rfl, rfl, rfl⟩, fun _ h => absurd rfl h, rfl⟩

theorem answers_raiseReassemblerFault (f : ReassemblerFault) {s u : State} (hu : InterfaceKept s u) :
    Answers s (raiseReassemblerFault f u) :=
  ⟨.fault, f.code, { u with r := { u.r with fault := f } }, ⟨hu.params, hu.pending, hu.responses, hu.data⟩, fun _ h => absurd rfl h, rfl⟩

theorem answers_failReceive (st : Status) {s u : State} (hu : InterfaceKept s u) : Answers s (failReceive st u) :=
  answers_zero st ⟨hu.params, hu.pending, hu.responses, hu.data⟩

theorem answers_whenWriterLive {k : State → State} {s : State} (hk : Answers s (k s)) :
    Answers s (whenWriterLive k s) := by
  rcases whenWriterLive_cases k s with ⟨-, e⟩ | ⟨-, e⟩ <;> rw [e]
  · exact hk
  · exact answers_raiseWriterFault _ s

theorem answers_whenReassemblerLive {g k : State → State} {s : State} (hg : InterfaceKept s (g s))
    (hk : Answers s (k s)) : Answers s (whenReassemblerLive g k s) := by
  rcases whenReassemblerLive_cases g k s with ⟨-, e⟩ | ⟨-, e⟩ | ⟨-, e⟩ <;> rw [e]
  · exact hk
  · exact answers_raiseReassemblerFault _ hg
  · exact answers_raiseReassemblerFault _ hg

theorem answers_writeHeader (f : Bool) (len : Half) (s : State) : Answers s (writeHeader f len s) := by
  rcases writeHeader_cases f len s with ⟨-, e⟩ | ⟨-, -, e⟩ | ⟨-, -, e⟩ <;> rw [e] <;>
    exact answers_zero _ ⟨rfl, rfl, rfl, rfl⟩

theorem answers_receive (s : State) : Answers s (receive s) := by
  rcases receive_cases s with ⟨st, -, e⟩ | ⟨n, -, -, e⟩ | ⟨_, _, t, len, -, -, -, e⟩ |
    ⟨_, _, t, fin, len, bs, -, -, -, -, -, e⟩ <;> rw [e]
  · exact answers_failReceive st ⟨rfl, rfl, rfl, rfl⟩
  · exact answers_zero _ ⟨rfl, rfl, rfl, rfl⟩
  · exact answers_failReceive _ ⟨rfl, rfl, rfl, rfl⟩
  · exact answers_zero _ ⟨rfl, rfl, rfl, rfl⟩

theorem answers_readBuffer (addr : Word) (s : State) : Answers s (readBuffer addr s) := by
  rcases readBuffer_cases addr s with ⟨-, e⟩ | ⟨b, n, -, e⟩ <;> rw [e]
  · exact answers_zero _ ⟨rfl, rfl, rfl, rfl⟩
  · exact answers_ok _ ⟨rfl, rfl, rfl, rfl⟩

theorem writerCommand_answers {k : State → State} {s t : State} (h : writerCommand k s = .next t)
    (hk : Answers s (k s)) : Answers s t := by
  obtain ⟨-, rfl⟩ := writerCommand_eq_next.1 h
  exact hk

theorem reassemblerCommand_answers {k : State → State} {s t : State} (h : reassemblerCommand k s = .next t)
    (hk : Answers s (k s)) : Answers s t := by
  obtain ⟨-, rfl⟩ := reassemblerCommand_eq_next.1 h
  exact hk

/-- Every command that takes a step answers once. -/
theorem exec_answers {i : Instr} {s t : State} (h : exec i s = .next t) : Answers s t := by
  have hs : InterfaceKept s s := ⟨rfl, rfl, rfl, rfl⟩
  have hid : InterfaceKept s (id s) := hs
  cases i with
  | wInit => rw [exec, execWInit] at h; exact writerCommand_answers h (answers_ok 0 ⟨rfl, rfl, rfl, rfl⟩)
  | wAdvseq =>
    rw [exec, execWAdvseq] at h
    exact writerCommand_answers h (answers_whenWriterLive (answers_ok 0 ⟨rfl, rfl, rfl, rfl⟩))
  | wWrhdr f len => exact writerCommand_answers h (answers_whenWriterLive (answers_writeHeader f len s))
  | rInit =>
    rw [exec, execRInit] at h
    refine reassemblerCommand_answers h ?_
    cases s.r.life with
    | live => exact answers_raiseReassemblerFault _ hs
    | uninit | destroyed => exact answers_ok 0 ⟨rfl, rfl, rfl, rfl⟩
  | rDestroy =>
    rw [exec, execRDestroy] at h
    refine reassemblerCommand_answers h ?_
    cases s.r.life with
    | live => exact answers_ok 0 ⟨rfl, rfl, rfl, rfl⟩
    | uninit | destroyed => exact answers_raiseReassemblerFault _ hs
  | rReset =>
    rw [exec, execRReset] at h
    exact reassemblerCommand_answers h (answers_whenReassemblerLive hid (answers_ok 0 ⟨rfl, rfl, rfl, rfl⟩))
  | rIscomplete =>
    rw [exec, execRIscomplete] at h
    exact reassemblerCommand_answers h (answers_whenReassemblerLive hid (answers_ok _ hs))
  | rReceive =>
    rw [exec, execRReceive] at h
    exact reassemblerCommand_answers h (answers_whenReassemblerLive ⟨rfl, rfl, rfl, rfl⟩ (answers_receive s))
  | rRdcount =>
    rw [exec, execRRdcount] at h
    exact reassemblerCommand_answers h (answers_whenReassemblerLive hid (answers_ok _ hs))
  | rRdbuf addr =>
    rw [exec, execRRdbuf] at h
    exact reassemblerCommand_answers h (answers_whenReassemblerLive hid (answers_readBuffer addr s))

/-- A step over a command answers it once, whether its word decodes or not. -/
theorem step_answers {s t : State} {c : Command} {rest : List HostEvent} (hp : s.pending = .command c :: rest)
    (h : step s = .next t) : Answers (acceptCommand c rest s) t := by
  rcases step_cases h with ⟨hp', -⟩ | ⟨rest', hp', -⟩ | ⟨c', rest', e, hp', -, -, rfl⟩ | ⟨c', rest', i, hp', -, -, he⟩ <;>
    cases hp.symm.trans hp'
  · exact answers_zero _ ⟨rfl, rfl, rfl, rfl⟩
  · exact exec_answers he

/-- Settles O44, from what every answered command leaves of the interface. -/
theorem eachCommandGivesOneResponse : Obligations.EachCommandGivesOneResponse :=
  fun _ _ _ _ hp h => (step_answers hp h).response

/-- No step writes the parameters (R21). -/
theorem step_params {s t : State} (h : step s = .next t) : t.params = s.params := by
  rcases step_cases h with ⟨-, rfl⟩ | ⟨rest, -, rfl⟩ | ⟨c, rest, e, hp, -⟩ | ⟨c, rest, i, hp, -⟩
  · rfl
  · rfl
  · exact (step_answers hp h).params
  · exact (step_answers hp h).params

/-- A command starts unfaulted in its own unit and keeps the other, so it changes no fault register that is set
(60_exceptions.md R186). -/
theorem exec_keeps_faults {i : Instr} {s t : State} (h : exec i s = .next t) :
    (s.w.fault ≠ .none → t.w.fault = s.w.fault) ∧ (s.r.fault ≠ .none → t.r.fault = s.r.fault) := by
  cases hi : isWriterCommand i with
  | true =>
    obtain ⟨hf, hr⟩ := exec_writer_frame hi h
    exact ⟨fun hne => absurd hf hne, fun _ => by rw [hr]⟩
  | false =>
    obtain ⟨hf, hw⟩ := exec_reassembler_frame hi h
    exact ⟨fun _ => by rw [hw], fun hne => absurd hf hne⟩

/-- Settles O41. -/
theorem parametersAndFaultsStay : Obligations.ParametersAndFaultsStay := by
  intro s t h
  refine ⟨step_params h, fun hreset => ?_⟩
  rcases step_cases h with ⟨-, rfl⟩ | ⟨rest, hp, -⟩ | ⟨c, rest, e, -, -, -, rfl⟩ | ⟨c, rest, i, -, -, -, he⟩
  · exact ⟨fun _ => rfl, fun _ => rfl⟩
  · exact absurd hp (hreset rest)
  · exact ⟨fun _ => rfl, fun _ => rfl⟩
  · simpa using exec_keeps_faults he

/-! ## What writes `R.complete` (10_state.md R30) -/

/-- A lifecycle fault keeps `R.complete`, so where it changes the command's body has run. -/
theorem whenReassemblerLive_of_complete_ne {g k : State → State} {s : State} (hg : (g s).r = s.r)
    (hne : (whenReassemblerLive g k s).r.complete ≠ s.r.complete) : whenReassemblerLive g k s = k s := by
  rcases whenReassemblerLive_cases g k s with ⟨-, e⟩ | ⟨-, e⟩ | ⟨-, e⟩
  · exact e
  · exact absurd (by rw [e, raiseReassemblerFault_r, hg]) hne
  · exact absurd (by rw [e, raiseReassemblerFault_r, hg]) hne

/-- An accepted fragment changes `R.complete` only by being final and setting it (41_reassembler.md R152). -/
theorem completeAfter_ne {fin : Bool} {r : Reassembler} (h : completeAfter fin r ≠ r.complete) : fin = true := by
  cases fin with
  | true => rfl
  | false => exact absurd rfl h

/-- `R.complete` changes on a `Live` Reassembler only by accepting a final fragment (41_reassembler.md R152). -/
theorem receive_complete_ne {s : State} (hne : (receive s).r.complete ≠ s.r.complete) :
    (receive s).r.complete = true ∧ (receive s).r.recv = false ∧ (receive s).r.expPart = 0 ∧
      ∃ rsp, (receive s).responses = rsp :: s.responses ∧ rsp.status = .ok := by
  rcases receive_cases s with ⟨st, -, e⟩ | ⟨n, -, -, e⟩ | ⟨_, _, t, len, -, -, -, e⟩ |
    ⟨_, _, t, fin, len, bs, -, -, -, -, -, e⟩ <;> rw [e] at hne ⊢
  · exact absurd rfl hne
  · exact absurd rfl hne
  · exact absurd rfl hne
  · cases completeAfter_ne hne
    exact ⟨rfl, rfl, rfl, _, rfl, rfl⟩

/-- The commands that change `R.complete`, and how. -/
theorem exec_complete_ne {i : Instr} {s t : State} (h : exec i s = .next t) (hne : t.r.complete ≠ s.r.complete) :
    (i = .rInit ∧ t.r.complete = false) ∨ (i = .rReset ∧ t.r.complete = false) ∨ i = .rDestroy ∨
    (i = .rReceive ∧ t.r.complete = true ∧ t.r.recv = false ∧ t.r.expPart = 0 ∧
      ∃ rsp, t.responses = rsp :: s.responses ∧ rsp.status = .ok) := by
  cases i with
  | wInit | wAdvseq | wWrhdr =>
    exact absurd (by rw [(exec_writer_frame rfl h).2]) hne
  | rInit =>
    rw [exec, execRInit] at h
    obtain ⟨-, rfl⟩ := reassemblerCommand_eq_next.1 h
    refine .inl ⟨rfl, ?_⟩
    cases hl : s.r.life with
    | live => simp [hl] at hne
    | uninit | destroyed => rfl
  | rDestroy => exact .inr (.inr (.inl rfl))
  | rReset =>
    rw [exec, execRReset] at h
    obtain ⟨-, rfl⟩ := reassemblerCommand_eq_next.1 h
    rw [whenReassemblerLive_of_complete_ne rfl hne]
    exact .inr (.inl ⟨rfl, rfl⟩)
  | rReceive =>
    rw [exec, execRReceive] at h
    obtain ⟨-, rfl⟩ := reassemblerCommand_eq_next.1 h
    have hrun := whenReassemblerLive_of_complete_ne (g := drawInputPos) rfl hne
    rw [hrun] at hne ⊢
    exact .inr (.inr (.inr ⟨rfl, receive_complete_ne hne⟩))
  | rIscomplete | rRdcount =>
    obtain ⟨-, rfl⟩ := reassemblerCommand_eq_next.1 h
    rw [whenReassemblerLive_of_complete_ne rfl hne] at hne
    exact absurd rfl hne
  | rRdbuf addr =>
    obtain ⟨-, rfl⟩ := reassemblerCommand_eq_next.1 h
    rw [whenReassemblerLive_of_complete_ne rfl hne] at hne
    rcases readBuffer_cases addr s with ⟨-, e⟩ | ⟨b, n, -, e⟩ <;> rw [e] at hne <;> exact absurd rfl hne

/-- Settles O42. -/
theorem completeChangesOnlyByItsWriters : Obligations.CompleteChangesOnlyByItsWriters := by
  intro s t h hne
  rcases step_cases h with ⟨-, rfl⟩ | ⟨rest, hp, -⟩ | ⟨c, rest, e, -, -, -, rfl⟩ | ⟨c, rest, i, hp, -, hd, he⟩
  · exact absurd rfl hne
  · exact .inl ⟨rest, hp⟩
  · exact absurd rfl hne
  · refine .inr ⟨c, rest, hp, ?_⟩
    rcases exec_complete_ne he hne with ⟨rfl, hc⟩ | ⟨rfl, hc⟩ | rfl | ⟨rfl, hc⟩
    · exact .inl ⟨hd, hc⟩
    · exact .inr (.inl ⟨hd, hc⟩)
    · exact .inr (.inr (.inl hd))
    · exact .inr (.inr (.inr ⟨hd, hc⟩))

/-! ## The step and the derived mode -/

/-- Settles O11: the branch of `step` for a well-formed command whose word decodes. -/
theorem stepRunsTheDecodedCommand : Obligations.StepRunsTheDecodedCommand := by
  intro s c rest i hp hw hd
  unfold step
  rw [hp]
  dsimp only
  rw [if_pos hw, hd]
  rfl

/-- Settles O45, by the four values of the two flags. -/
theorem modeReadsTheTwoFlags : Obligations.ModeReadsTheTwoFlags := by
  intro r
  unfold modeOf
  cases r.recv <;> cases r.complete <;> simp

end Sys2Proof.Machine

/-! PROOFS of the obligations of 20_memory.md: what the stream primitives give (R56 to R61), which cells a command reaches
(R50), and that every step keeps the invariant (R51, 10_state.md R24, R35). -/

namespace Sys2Proof.Machine

/-! ## The invariant over the shared operations (10_state.md R35) -/

/-- Of the Writer only the bound of its part counter has to be shown again (10_state.md R24). -/
theorem inv_replace_w {s : State} {w' : Writer} (h : Inv s) (hw : PartOk s.params w') : Inv { s with w := w' } :=
  ⟨h.buffer, h.counters, hw, h.stream⟩

/-- Of the Reassembler only the buffer's form, and while it is `Live` the counters' relations. -/
theorem inv_replace_r {s : State} {r' : Reassembler} (h : Inv s) (hb : BufferOk s.params r')
    (hc : r'.life = .live → CountersOk s.params r') : Inv { s with r := r' } :=
  ⟨hb, hc, h.part, h.stream⟩

theorem inv_replace_inp {s : State} {st : InStream} (h : Inv s) (hst : st.wf) : Inv { s with inp := st } :=
  ⟨h.buffer, h.counters, h.part, hst⟩

/-- The output stream, the responses, the host's list and the draw counter are free of conditions. -/
theorem inv_replace_rest {s : State} (h : Inv s) (out : OutStream) (responses : List Response) (pending : List HostEvent)
    (draws : Nat) : Inv { s with out := out, responses := responses, pending := pending, draws := draws } :=
  ⟨h.buffer, h.counters, h.part, h.stream⟩

theorem inv_respond {s : State} (st : Status) (v : Word) (h : Inv s) : Inv (respond st v s) :=
  inv_replace_rest h _ _ _ _

theorem inv_drawOutputPrefix {s : State} (bs : List Byte) (h : Inv s) : Inv (drawOutputPrefix bs s) :=
  inv_replace_rest h _ _ _ _

theorem inv_drawInputPos {s : State} (h : Inv s) : Inv (drawInputPos s) :=
  ⟨h.buffer, h.counters, h.part, (drawInputPos_bounds s).2 h.stream⟩

theorem inv_failReceive {s : State} (st : Status) (h : Inv s) : Inv (failReceive st s) :=
  inv_respond st 0 (inv_drawInputPos h)

theorem inv_raiseWriterFault {s : State} (f : WriterFault) (h : Inv s) : Inv (raiseWriterFault f s) :=
  inv_respond .fault f.code (inv_replace_w h h.part)

theorem inv_raiseReassemblerFault {s : State} (f : ReassemblerFault) (h : Inv s) : Inv (raiseReassemblerFault f s) :=
  inv_respond .fault f.code (inv_replace_r h h.buffer h.counters)

/-- The block takes a command whose operand the interface has. -/
theorem inv_acceptCommand {s : State} {c : Command} (rest : List HostEvent) (h : Inv s) (hc : c.wf) :
    Inv (acceptCommand c rest s) :=
  inv_replace_rest (inv_replace_inp h hc) _ _ _ _

/-- After an asserted reset no unit is `Live` and every cell is `unknown` (70_reset_and_hazards.md R210). -/
theorem inv_applyReset {s : State} (h : Inv s) : Inv (applyReset s) :=
  ⟨bufferOk_nil rfl, nofun, nofun, h.stream⟩

/-- A unit that `R.DESTROY` leaves is not `Live`, so its drawn counters need no relations (41_reassembler.md R133). -/
theorem inv_destroyRegisters {s : State} (h : Inv s) : Inv (destroyRegisters s) :=
  ⟨bufferOk_nil rfl, nofun, h.part, h.stream⟩

theorem inv_whenWriterLive {k : State → State} {s : State} (h : Inv s) (hk : Inv (k s)) :
    Inv (whenWriterLive k s) := by
  rcases whenWriterLive_cases k s with ⟨-, e⟩ | ⟨-, e⟩ <;> rw [e]
  · exact hk
  · exact inv_raiseWriterFault _ h

/-- The command's body has to keep the invariant only where it runs, on a `Live` Reassembler. -/
theorem inv_whenReassemblerLive {g k : State → State} {s : State} (hg : Inv (g s))
    (hk : s.r.life = .live → Inv (k s)) : Inv (whenReassemblerLive g k s) := by
  rcases whenReassemblerLive_cases g k s with ⟨hl, e⟩ | ⟨-, e⟩ | ⟨-, e⟩ <;> rw [e]
  · exact hk hl
  · exact inv_raiseReassemblerFault _ hg
  · exact inv_raiseReassemblerFault _ hg

theorem writerCommand_inv {k : State → State} {s t : State} (h : writerCommand k s = .next t) (hk : Inv (k s)) :
    Inv t := by
  obtain ⟨-, rfl⟩ := writerCommand_eq_next.1 h
  exact hk

theorem reassemblerCommand_inv {k : State → State} {s t : State} (h : reassemblerCommand k s = .next t)
    (hk : Inv (k s)) : Inv t := by
  obtain ⟨-, rfl⟩ := reassemblerCommand_eq_next.1 h
  exact hk

/-! ## The invariant over the command bodies -/

/-- Cleared counters stand in the relations of 10_state.md R35. -/
theorem countersOk_of_cleared {p : Params} {r : Reassembler} (hcount : r.count = 0) (hpart : r.expPart = 0)
    (hrecv : r.recv = false) : CountersOk p r := by
  simp [CountersOk, hcount, hpart, hrecv]

/-- A part counter cleared by its command is within the bound of 10_state.md R24. -/
theorem partOk_of_cleared {p : Params} {w : Writer} (h : w.part = 0) : PartOk p w := by
  simp [PartOk, h]

/-- A part counter in the 7-bit range goes up by one without wrapping. -/
theorem toNat_part_succ {b : BitVec 8} (h : b.toNat < 128) : (b + 1).toNat = b.toNat + 1 :=
  BitVec.toNat_add_of_lt (show b.toNat + 1 < 2 ^ 8 by omega)

/-- Under `ERROR` a header is written only below part 128, so the part counter ends at 128 or below (40_writer.md R116). -/
theorem partOk_succ {p : Params} {w : Writer} (h : ¬ (128 ≤ w.part.toNat ∧ p.overflowMode = .error)) :
    PartOk p { w with part := w.part + 1 } := by
  intro _ hmode
  have hlt : w.part.toNat < 128 := by
    by_contra hge
    exact h ⟨Nat.le_of_not_lt hge, hmode⟩
  have hsucc := toNat_part_succ hlt
  dsimp only
  omega

theorem inv_writeHeader {s : State} (f : Bool) (len : Half) (h : Inv s) : Inv (writeHeader f len s) := by
  rcases writeHeader_cases f len s with ⟨-, e⟩ | ⟨-, -, e⟩ | ⟨hp, -, e⟩ <;> rw [e]
  · exact inv_respond _ _ h
  · exact inv_respond _ _ (inv_drawOutputPrefix _ h)
  · exact inv_respond _ _ (inv_replace_rest (inv_replace_w h (partOk_succ hp)) _ _ _ _)

/-- The sum of an accepted payload does not wrap, for the capacity is at most 2^24 (00_scope.md R9). -/
theorem toNat_count_add {p : Params} {count : Word} {len : Half}
    (hle : count.toNat + len.toNat ≤ p.maxOctetCount.val) :
    (count + len.setWidth 32).toNat = count.toNat + len.toNat := by
  have hmax := p.maxOctetCount.isLt
  have hwide : (len.setWidth 32).toNat = len.toNat := BitVec.toNat_setWidth_of_le (by decide)
  rw [BitVec.toNat_add_of_lt (by omega), hwide]

/-- A commit leaves the relations of 10_state.md R35: a final fragment clears `R.recv` and `R.expPart`, any other keeps
`R.recv` set and goes on to the next part (41_reassembler.md R152). -/
theorem countersOk_commitFragment {p : Params} {r : Reassembler} {seq : Half} {part : PartIndex} {t : Tentative}
    (fin : Bool) {len : Half} (bs : List Byte) (hsel : selectFragment r seq part = some t)
    (hle : t.count.toNat + len.toNat ≤ p.maxOctetCount.val) : CountersOk p (commitFragment t fin len bs r) := by
  have hcount : (commitFragment t fin len bs r).count.toNat ≤ p.maxOctetCount.val := by
    rw [commitFragment_count, toNat_count_add hle]
    exact hle
  cases fin with
  | true => exact ⟨hcount, by simp, fun _ => rfl, nofun⟩
  | false =>
    have hlt := selectFragment_part_lt hsel
    have hrecv : (commitFragment t false len bs r).recv = true := selectFragment_recv hsel
    have hpart : (commitFragment t false len bs r).expPart.toNat = t.expPart.toNat + 1 := by
      rw [commitFragment_expPart, if_neg Bool.false_ne_true, toNat_part_succ hlt]
    exact ⟨hcount, by omega, fun hr => absurd (hrecv.symm.trans hr) nofun, fun _ => by omega⟩

/-- `R.RECEIVE` on a `Live` Reassembler keeps the invariant at each of its ends (41_reassembler.md R148 to R154). -/
theorem inv_receive {s : State} (h : Inv s) (hlive : s.r.life = .live) : Inv (receive s) := by
  rcases receive_cases s with ⟨st, -, e⟩ | ⟨n, -, hn, e⟩ | ⟨_, _, t, len, -, -, -, e⟩ |
    ⟨_, _, t, fin, len, bs, hsel, -, hle, hbs, hpos, e⟩ <;> rw [e]
  · exact inv_failReceive st h
  · exact inv_respond _ _ (inv_replace_inp h hn)
  · exact inv_failReceive _ (inv_replace_r h (bufferOk_forget h.buffer rfl) fun _ => h.counters hlive)
  · have hb : BufferOk s.params (commitFragment t fin len bs s.r) :=
      bufferOk_memWrite h.buffer rfl (by rw [hbs]; exact hle)
    exact inv_respond _ _
      (inv_replace_inp (inv_replace_r h hb fun _ => countersOk_commitFragment fin bs hsel hle) hpos)

theorem inv_readBuffer {s : State} (addr : Word) (h : Inv s) : Inv (readBuffer addr s) := by
  rcases readBuffer_cases addr s with ⟨-, e⟩ | ⟨b, n, -, e⟩ <;> rw [e]
  · exact inv_respond _ _ h
  · exact inv_respond _ _ (inv_replace_rest h _ _ _ _)

/-- Every command that takes a step keeps the invariant. -/
theorem exec_keeps_inv {i : Instr} {s t : State} (hs : Inv s) (h : exec i s = .next t) : Inv t := by
  cases i with
  | wInit =>
    rw [exec, execWInit] at h
    exact writerCommand_inv h (inv_respond _ _ (inv_replace_w hs (partOk_of_cleared rfl)))
  | wAdvseq =>
    exact writerCommand_inv h (inv_whenWriterLive hs (inv_respond _ _ (inv_replace_w hs (partOk_of_cleared rfl))))
  | wWrhdr f len => exact writerCommand_inv h (inv_whenWriterLive hs (inv_writeHeader f len hs))
  | rInit =>
    rw [exec, execRInit] at h
    refine reassemblerCommand_inv h ?_
    cases s.r.life with
    | live => exact inv_raiseReassemblerFault _ hs
    | uninit | destroyed =>
      exact inv_respond _ _ (inv_replace_r hs (bufferOk_nil rfl) fun _ => countersOk_of_cleared rfl rfl rfl)
  | rDestroy =>
    rw [exec, execRDestroy] at h
    refine reassemblerCommand_inv h ?_
    cases s.r.life with
    | live => exact inv_respond _ _ (inv_destroyRegisters hs)
    | uninit | destroyed => exact inv_raiseReassemblerFault _ hs
  | rReset =>
    exact reassemblerCommand_inv h (inv_whenReassemblerLive hs fun _ =>
      inv_respond _ _ (inv_replace_r hs hs.buffer fun _ => countersOk_of_cleared rfl rfl rfl))
  | rIscomplete | rRdcount =>
    exact reassemblerCommand_inv h (inv_whenReassemblerLive hs fun _ => inv_respond _ _ hs)
  | rReceive =>
    exact reassemblerCommand_inv h (inv_whenReassemblerLive (inv_drawInputPos hs) (inv_receive hs))
  | rRdbuf addr =>
    exact reassemblerCommand_inv h (inv_whenReassemblerLive hs fun _ => inv_readBuffer addr hs)

/-- Settles O39, by the four things a step can do. -/
theorem stepKeepsTheInvariant : Obligations.StepKeepsTheInvariant := by
  intro s t hs h
  rcases step_cases h with ⟨-, rfl⟩ | ⟨rest, -, rfl⟩ | ⟨c, rest, e, -, hc, -, rfl⟩ | ⟨c, rest, i, -, hc, -, he⟩
  · exact hs
  · exact inv_applyReset (inv_replace_rest hs _ _ _ _)
  · exact inv_respond _ _ (inv_acceptCommand rest hs hc)
  · exact exec_keeps_inv (inv_acceptCommand rest hs hc) he

/-! ## Which cells a command reaches (20_memory.md R50, 10_state.md R32) -/

/-- A lifecycle fault keeps the buffer, so afterwards it is as before or as the command's body left it. -/
theorem whenReassemblerLive_buf {g k : State → State} {s : State} (hg : (g s).r = s.r) :
    (whenReassemblerLive g k s).r.buf = s.r.buf ∨ (whenReassemblerLive g k s).r.buf = (k s).r.buf := by
  rcases whenReassemblerLive_cases g k s with ⟨-, e⟩ | ⟨-, e⟩ | ⟨-, e⟩ <;> rw [e]
  · exact .inr rfl
  · exact .inl (by rw [raiseReassemblerFault_r, hg])
  · exact .inl (by rw [raiseReassemblerFault_r, hg])

/-- A command whose body keeps the buffer keeps it in every lifecycle. -/
theorem whenReassemblerLive_keeps_buf {g k : State → State} {s t : State} (hg : (g s).r = s.r)
    (hk : (k s).r.buf = s.r.buf) (h : reassemblerCommand (whenReassemblerLive g k) s = .next t) :
    t.r.buf = s.r.buf := by
  obtain ⟨-, rfl⟩ := reassemblerCommand_eq_next.1 h
  rcases whenReassemblerLive_buf (k := k) hg with e | e
  · exact e
  · exact e.trans hk

theorem readBuffer_buf (addr : Word) (s : State) : (readBuffer addr s).r.buf = s.r.buf := by
  rcases readBuffer_cases addr s with ⟨-, e⟩ | ⟨b, n, -, e⟩ <;> rw [e] <;> rfl

/-- Only the cells of the payload's target range can read otherwise after `R.RECEIVE` (41_reassembler.md R150). -/
theorem receive_read_outside {s : State} {a : Nat}
    (ha : ∀ x n, targetCells s = some (x, n) → a < x ∨ x + n ≤ a) :
    (receive s).r.buf.read a = s.r.buf.read a := by
  rcases receive_cases s with ⟨st, -, e⟩ | ⟨n, -, -, e⟩ | ⟨_, _, t, len, -, htarget, -, e⟩ |
    ⟨_, _, t, fin, len, bs, -, htarget, -, hbs, -, e⟩ <;> rw [e]
  · rfl
  · rfl
  · have hout := ha _ _ htarget
    rw [failReceive_r, read_forget, if_neg (by omega)]
  · have hout := ha _ _ htarget
    rw [respond_r, commitFragment_buf, read_memWrite, if_neg (by omega)]

/-- Every command but `R.RECEIVE`, `R.INIT` and `R.DESTROY` leaves the buffer. -/
theorem exec_keeps_buf {i : Instr} {s t : State} (h : exec i s = .next t) (hreceive : i ≠ .rReceive)
    (hinit : i ≠ .rInit) (hdestroy : i ≠ .rDestroy) : t.r.buf = s.r.buf := by
  cases i with
  | wInit | wAdvseq | wWrhdr => rw [(exec_writer_frame rfl h).2]
  | rReset | rIscomplete | rRdcount => exact whenReassemblerLive_keeps_buf rfl rfl h
  | rRdbuf addr => exact whenReassemblerLive_keeps_buf rfl (readBuffer_buf addr s) h
  | rInit => exact absurd rfl hinit
  | rDestroy => exact absurd rfl hdestroy
  | rReceive => exact absurd rfl hreceive

/-- Settles O36, from the target range of `R.RECEIVE` and the commands that keep the buffer. -/
theorem cellsOutsideTheTargetRangeAreKept : Obligations.CellsOutsideTheTargetRangeAreKept := by
  intro s t i h
  refine ⟨?_, exec_keeps_buf h⟩
  rintro rfl a ha
  rw [exec, execRReceive] at h
  obtain ⟨-, rfl⟩ := reassemblerCommand_eq_next.1 h
  rcases whenReassemblerLive_buf (g := drawInputPos) (k := receive) rfl with e | e <;> rw [e]
  exact receive_read_outside ha

/-! ## The stream primitives (20_memory.md R56 to R61) -/

theorem inReadU8_eq_none_iff {st : InStream} : inReadU8 st = none ↔ st.data.length - st.pos < 1 := by
  refine ⟨fun h => ?_, inReadU8_of_lt⟩
  by_contra hge
  have hdrop := List.drop_eq_getElem_cons (show st.pos < st.data.length by omega)
  exact absurd ((inReadU8_of_drop hdrop).symm.trans h) nofun

theorem inReadU16_eq_none_iff {o : ByteOrder} {st : InStream} :
    inReadU16 o st = none ↔ st.data.length - st.pos < 2 := by
  refine ⟨fun h => ?_, inReadU16_of_lt⟩
  by_contra hge
  have hdrop := List.drop_eq_getElem_cons (show st.pos < st.data.length by omega)
  rw [List.drop_eq_getElem_cons (show st.pos + 1 < st.data.length by omega)] at hdrop
  exact absurd ((inReadU16_of_drop hdrop).symm.trans h) nofun

theorem inReadOctets_eq_none_iff {n : Nat} {st : InStream} :
    inReadOctets n st = none ↔ st.data.length - st.pos < n := by
  refine ⟨fun h => ?_, inRead_of_lt⟩
  by_contra hge
  exact absurd ((inRead_of_le (Nat.le_of_not_lt hge)).symm.trans h) nofun

/-- A read of no bytes succeeds and moves nothing (R59). -/
theorem inReadOctets_zero (st : InStream) : inReadOctets 0 st = some ([], st) :=
  inRead_of_le (Nat.zero_le _)

/-- Settles O9. -/
theorem inputReadsSucceedExactlyWhenBytesRemain : Obligations.InputReadsSucceedExactlyWhenBytesRemain := by
  intro o st n
  refine ⟨inReadU8_eq_none_iff, inReadU16_eq_none_iff, inReadOctets_eq_none_iff, fun _ _ => inReadU8_of_drop, ?_,
    fun _ _ hdrop hn => inRead_of_drop hdrop hn.symm, inReadOctets_zero st⟩
  intro b0 b1 rest hdrop
  refine ⟨u16Value o b0 b1, inReadU16_of_drop hdrop, ?_, ?_⟩
  · rintro rfl
    exact toNat_u16Value_big b0 b1
  · rintro rfl
    exact toNat_u16Value_little b0 b1

/-- Settles O10: both writes are `outWrite` of one byte and of the two bytes of the 16-bit value. -/
theorem outputWritesSucceedExactlyWhenTheyFit : Obligations.OutputWritesSucceedExactlyWhenTheyFit := by
  intro o st b v
  refine ⟨outWrite_of_le (bs := [b]), outWrite_of_lt (bs := [b]), fun hcap => ?_,
    fun hcap => outWrite_of_lt (by rwa [length_u16Bytes])⟩
  obtain ⟨b0, b1, hbytes, -, hbig, hlittle⟩ := u16Bytes_spec o v
  refine ⟨b0, b1, ?_, hbig, hlittle⟩
  rw [outWriteU16, hbytes]
  exact outWrite_of_le hcap

end Sys2Proof.Machine

/-! PROOFS of the obligations of 30_encoding.md: the command word and its decoder (R90 to R98), the bytes of a header (R81,
R85), and the datagrams of a blob, fed to the Reassembler (R84, 41_reassembler.md R157). -/

namespace Sys2Proof

/-! ## The fields of each command's format (R91 to R93) -/

/-- How many low bits of the word hold operands: `F` and `LEN` of format H, `ADDR` of format A, none of format N. -/
def Instr.operandBits : Instr → Nat
  | .wWrhdr _ _ => 17
  | .rRdbuf _ => 24
  | .wInit | .wAdvseq | .rInit | .rDestroy | .rReset | .rIscomplete | .rReceive | .rRdcount => 0

/-- `Z` of a word read in the format of `i`: the bits between `OPC` and the operands. -/
def Instr.reservedBits (i : Instr) (c : Word) : BitVec 24 := lowField c >>> i.operandBits

/-- The command `i` with the operands that `c` carries in the format of `i`. -/
def Instr.withOperandsOf (i : Instr) (c : Word) : Instr :=
  match i with
  | .wWrhdr _ _ => .wWrhdr (finalField c) (lenField c)
  | .rRdbuf _ => .rRdbuf ((lowField c).setWidth 32)
  | .wInit | .wAdvseq | .rInit | .rDestroy | .rReset | .rIscomplete | .rReceive | .rRdcount => i

theorem toNat_reservedBits (i : Instr) (c : Word) :
    (i.reservedBits c).toNat = c.toNat % 2 ^ 24 / 2 ^ i.operandBits := by
  rw [Instr.reservedBits, BitVec.toNat_ushiftRight, toNat_lowField, Nat.shiftRight_eq_div_pow]

theorem reservedBits_eq_zero_iff {i : Instr} {c : Word} :
    i.reservedBits c = 0 ↔ c.toNat % 2 ^ 24 / 2 ^ i.operandBits = 0 := by
  rw [← toNat_reservedBits, ← BitVec.toNat_inj]
  rfl

/-- A word without operands has its `Z` bits in the whole of bits 23:0 (R91). -/
theorem reservedBits_of_no_operands {i : Instr} (h : i.operandBits = 0) (c : Word) : i.reservedBits c = lowField c := by
  rw [Instr.reservedBits, h, BitVec.ushiftRight_zero]

theorem reservedBits_wWrhdr_eq_zero_iff {f : Bool} {len : Half} {c : Word} :
    (Instr.wWrhdr f len).reservedBits c = 0 ↔ reservedFieldH c = 0 := by
  rw [reservedBits_eq_zero_iff, ← BitVec.toNat_inj, toNat_reservedFieldH]
  simp only [Instr.operandBits, BitVec.ofNat_eq_ofNat, BitVec.toNat_ofNat]
  omega

/-- Format A has no `Z` bits (R93). -/
theorem reservedBits_rRdbuf (addr c : Word) : (Instr.rRdbuf addr).reservedBits c = 0 :=
  reservedBits_eq_zero_iff.2 (Nat.div_eq_of_lt (Nat.mod_lt _ (by decide)))

@[simp] theorem opcode_withOperandsOf (i : Instr) (c : Word) : (i.withOperandsOf c).opcode = i.opcode := by
  cases i <;> rfl

@[simp] theorem row_withOperandsOf (i : Instr) (c : Word) : (i.withOperandsOf c).row = i.row := by
  cases i <;> rfl

/-! ## The decoder, by the opcode of the word (R94 to R96) -/

/-- A listed opcode selects its command, with the operands the word carries, unless a `Z` bit is set. -/
theorem decode_of_opcField {c : Word} {i : Instr} (h : opcField c = i.opcode) :
    decode c =
      if i.reservedBits c = 0 then .ok (i.withOperandsOf c) else .error (.nonzeroReserved (opcField c)) := by
  cases i with
  | wWrhdr f len =>
    simp only [reservedBits_wWrhdr_eq_zero_iff]
    simp [decode, h, Instr.opcode, decodeH, Instr.withOperandsOf]
  | rRdbuf addr =>
    rw [if_pos (reservedBits_rRdbuf addr c)]
    simp [decode, h, Instr.opcode, decodeA, Instr.withOperandsOf]
  | wInit | wAdvseq | rInit | rDestroy | rReset | rIscomplete | rReceive | rRdcount =>
    rw [reservedBits_of_no_operands rfl]
    simp [decode, h, Instr.opcode, decodeN, Instr.withOperandsOf]

/-- An opcode that no command has is unknown. -/
theorem decode_of_unlisted {c : Word} (h : ∀ i : Instr, opcField c ≠ i.opcode) :
    decode c = .error (.unknownOpcode (opcField c)) := by
  unfold decode
  exact (if_neg (h .wInit)).trans <| (if_neg (h .wAdvseq)).trans <| (if_neg (h (.wWrhdr false 0))).trans <|
    (if_neg (h .rInit)).trans <| (if_neg (h .rDestroy)).trans <| (if_neg (h .rReset)).trans <|
    (if_neg (h .rIscomplete)).trans <| (if_neg (h .rReceive)).trans <| (if_neg (h .rRdcount)).trans <|
    if_neg (h (.rRdbuf 0))

/-- A word that decodes has the opcode of a command, its `Z` bits are 0, and it gives that command its operands. -/
theorem decode_eq_ok {c : Word} {i : Instr} (h : decode c = .ok i) :
    ∃ j : Instr, opcField c = j.opcode ∧ j.reservedBits c = 0 ∧ i = j.withOperandsOf c := by
  by_cases hlisted : ∃ j : Instr, opcField c = j.opcode
  · obtain ⟨j, hj⟩ := hlisted
    rw [decode_of_opcField hj] at h
    by_cases hz : j.reservedBits c = 0
    · rw [if_pos hz] at h
      exact ⟨j, hj, hz, (Except.ok.inj h).symm⟩
    · rw [if_neg hz] at h
      cases h
  · rw [decode_of_unlisted (not_exists.1 hlisted)] at h
    cases h

/-! ## Decoding after encoding (R90 to R94, R98) -/

theorem reservedBits_encode (i : Instr) : i.reservedBits (encode i) = 0 := by
  cases i with
  | wWrhdr f len =>
    have hlow : (Instr.wWrhdr f len).lowBits.toNat < 2 ^ 17 := by
      rw [toNat_lowBits_wWrhdr]
      have := f.toNat_lt
      omega
    rw [reservedBits_eq_zero_iff, ← toNat_lowField, lowField_encode]
    exact Nat.div_eq_of_lt hlow
  | rRdbuf addr => exact reservedBits_rRdbuf addr _
  | wInit | wAdvseq | rInit | rDestroy | rReset | rIscomplete | rReceive | rRdcount =>
    rw [reservedBits_of_no_operands rfl, lowField_encode]
    rfl

theorem finalField_encode_wWrhdr (f : Bool) (len : Half) : finalField (encode (.wWrhdr f len)) = f := by
  have hlen := len.isLt
  rw [finalField_eq, toNat_encode, toNat_lowBits_wWrhdr]
  cases f <;> simp only [Instr.opcode, Bool.toNat_false, Bool.toNat_true, BitVec.toNat_ofNat] <;>
    simp only [decide_eq_true_eq, decide_eq_false_iff_not] <;> omega

theorem lenField_encode_wWrhdr (f : Bool) (len : Half) : lenField (encode (.wWrhdr f len)) = len := by
  apply BitVec.eq_of_toNat_eq
  rw [toNat_lenField, toNat_encode, toNat_lowBits_wWrhdr]
  have := len.isLt
  omega

/-- A 24-bit address comes back zero-extended (R98). -/
theorem setWidth_lowField_encode_rRdbuf {addr : Word} (h : addr.toNat < 2 ^ 24) :
    (lowField (encode (.rRdbuf addr))).setWidth 32 = addr := by
  apply BitVec.eq_of_toNat_eq
  rw [BitVec.toNat_setWidth_of_le (by decide), lowField_encode, toNat_lowBits_rRdbuf, Nat.mod_eq_of_lt h]

theorem withOperandsOf_encode {i : Instr} (h : i.wf = true) : i.withOperandsOf (encode i) = i := by
  cases i with
  | wWrhdr f len => simp only [Instr.withOperandsOf, finalField_encode_wWrhdr, lenField_encode_wWrhdr]
  | rRdbuf addr => simp only [Instr.withOperandsOf, setWidth_lowField_encode_rRdbuf (of_decide_eq_true h)]
  | wInit | wAdvseq | rInit | rDestroy | rReset | rIscomplete | rReceive | rRdcount => rfl

/-- Settles O1: the word of `i` has its opcode, no `Z` bit set, and carries its operands. -/
theorem decodeEncodeEveryCommand : Obligations.DecodeEncodeEveryCommand := by
  intro i hwf
  rw [decode_of_opcField (opcField_encode i), if_pos (reservedBits_encode i), withOperandsOf_encode hwf]

/-! ## Encoding after decoding (R90 to R96) -/

/-- A word is its opcode and its bits 23:0. -/
theorem encode_eq_of_fields {i : Instr} {c : Word} (hopc : i.opcode = opcField c) (hlow : i.lowBits = lowField c) :
    encode i = c := by
  apply BitVec.eq_of_toNat_eq
  rw [toNat_encode, hopc, hlow, toNat_opcField, toNat_lowField]
  exact Nat.div_add_mod' _ _

theorem wf_withOperandsOf (i : Instr) (c : Word) : (i.withOperandsOf c).wf = true := by
  cases i with
  | rRdbuf addr =>
    have h : ((lowField c).setWidth 32).toNat < 2 ^ 24 := by
      rw [BitVec.toNat_setWidth_of_le (by decide)]
      exact (lowField c).isLt
    exact decide_eq_true h
  | wInit | wAdvseq | wWrhdr _ _ | rInit | rDestroy | rReset | rIscomplete | rReceive | rRdcount => rfl

theorem lowBits_withOperandsOf {i : Instr} {c : Word} (h : i.reservedBits c = 0) :
    (i.withOperandsOf c).lowBits = lowField c := by
  cases i with
  | wWrhdr f len =>
    have hz := reservedBits_eq_zero_iff.1 h
    apply BitVec.eq_of_toNat_eq
    rw [Instr.withOperandsOf, toNat_lowBits_wWrhdr, toNat_lenField, toNat_lowField, finalField_eq]
    simp only [Instr.operandBits] at hz
    by_cases hf : c.toNat / 2 ^ 16 % 2 = 1
    · rw [decide_eq_true hf, Bool.toNat_true]
      omega
    · rw [decide_eq_false hf, Bool.toNat_false]
      omega
  | rRdbuf addr => exact BitVec.setWidth_setWidth_of_le _ (by decide)
  | wInit | wAdvseq | rInit | rDestroy | rReset | rIscomplete | rReceive | rRdcount =>
    rw [reservedBits_of_no_operands rfl] at h
    exact h.symm

/-- Settles O2: the fields of the decoded command are those of the word. -/
theorem encodeDecodeEveryLegalWord : Obligations.EncodeDecodeEveryLegalWord := by
  intro c i h
  obtain ⟨j, hopc, hz, rfl⟩ := decode_eq_ok h
  exact ⟨wf_withOperandsOf j c,
    encode_eq_of_fields ((opcode_withOperandsOf j c).trans hopc.symm) (lowBits_withOperandsOf hz)⟩

/-! ## The command map (R94, R95) -/

theorem mem_opcodeRows_iff {row : OpcodeRow} : row ∈ opcodeRows ↔ ∃ i : Instr, i.row = row := by
  constructor
  · intro h
    simp only [opcodeRows, List.mem_cons, List.not_mem_nil, or_false] at h
    rcases h with rfl | rfl | rfl | rfl | rfl | rfl | rfl | rfl | rfl | rfl
    exacts [⟨.wInit, rfl⟩, ⟨.wAdvseq, rfl⟩, ⟨.wWrhdr false 0, rfl⟩, ⟨.rInit, rfl⟩, ⟨.rDestroy, rfl⟩, ⟨.rReset, rfl⟩,
      ⟨.rIscomplete, rfl⟩, ⟨.rReceive, rfl⟩, ⟨.rRdcount, rfl⟩, ⟨.rRdbuf 0, rfl⟩]
  · rintro ⟨i, rfl⟩
    cases i <;> simp [Instr.row, opcodeRows]

/-- The mask of a row covers all bits but the operands. -/
theorem row_mask_eq (i : Instr) : i.row.mask = BitVec.allOnes 32 <<< i.operandBits := by
  cases i <;> simp only [Instr.row, Instr.operandBits] <;> decide

/-- The pattern of a row is its opcode with all other bits 0. -/
theorem toNat_row_pattern (i : Instr) : i.row.pattern.toNat = i.opcode.toNat * 2 ^ 24 := by
  cases i <;> simp [Instr.row, Instr.opcode]

/-- Masking the operands away keeps the bits above them. -/
theorem toNat_and_row_mask (i : Instr) (c : Word) :
    (c &&& i.row.mask).toNat = c.toNat / 2 ^ i.operandBits * 2 ^ i.operandBits := by
  have hle : c.toNat / 2 ^ i.operandBits * 2 ^ i.operandBits < 2 ^ 32 :=
    (Nat.div_mul_le_self _ _).trans_lt c.isLt
  rw [row_mask_eq, ← BitVec.shiftLeft_ushiftRight, BitVec.toNat_shiftLeft, BitVec.toNat_ushiftRight,
    Nat.shiftRight_eq_div_pow, Nat.shiftLeft_eq, Nat.mod_eq_of_lt hle]

/-- `(c & mask) = match` says that `OPC` is the row's and the `Z` bits of its format are 0. -/
theorem row_matches_iff {i : Instr} {c : Word} :
    i.row.matches c = true ↔ opcField c = i.opcode ∧ i.reservedBits c = 0 := by
  rw [OpcodeRow.matches, beq_iff_eq, ← BitVec.toNat_inj, toNat_and_row_mask, toNat_row_pattern,
    ← BitVec.toNat_inj (x := opcField c), toNat_opcField, reservedBits_eq_zero_iff]
  have hbits : i.operandBits = 0 ∨ i.operandBits = 17 ∨ i.operandBits = 24 := by
    cases i <;> simp [Instr.operandBits]
  rcases hbits with h | h | h <;> rw [h] <;> omega

theorem decode_of_row_matches {i : Instr} {c : Word} (h : i.row.matches c = true) :
    decode c = .ok (i.withOperandsOf c) := by
  obtain ⟨hopc, hz⟩ := row_matches_iff.1 h
  rw [decode_of_opcField hopc, if_pos hz]

/-- Settles O3. At most one row fits because decoding is a function and gives each fitting row its own command. -/
theorem decodeSelectsTheOneMatchingRow : Obligations.DecodeSelectsTheOneMatchingRow := by
  intro c
  have hselects : ∀ row ∈ opcodeRows, row.matches c = true → ∃ i, decode c = .ok i ∧ i.row = row := by
    intro row hrow hm
    obtain ⟨i, rfl⟩ := mem_opcodeRows_iff.1 hrow
    exact ⟨_, decode_of_row_matches hm, row_withOperandsOf i c⟩
  refine ⟨hselects, fun row hrow row' hrow' hm hm' => ?_, fun hnone => ?_⟩
  · obtain ⟨i, hi, rfl⟩ := hselects row hrow hm
    obtain ⟨i', hi', rfl⟩ := hselects row' hrow' hm'
    rw [Except.ok.inj (hi.symm.trans hi')]
  · cases hd : decode c with
    | error e => exact ⟨e, rfl⟩
    | ok i =>
      obtain ⟨j, hopc, hz, -⟩ := decode_eq_ok hd
      have hm := row_matches_iff.2 ⟨hopc, hz⟩
      exact absurd (hm.symm.trans (hnone _ (mem_opcodeRows_iff.2 ⟨j, rfl⟩))) nofun

/-- Settles O4: each of the ten words is the encoding of its command. -/
theorem wordsOfTheCommandMapDecode : Obligations.WordsOfTheCommandMapDecode :=
  ⟨decodeEncodeEveryCommand .wInit rfl, decodeEncodeEveryCommand .wAdvseq rfl,
    decodeEncodeEveryCommand (.wWrhdr true 2) rfl, decodeEncodeEveryCommand .rInit rfl,
    decodeEncodeEveryCommand .rDestroy rfl, decodeEncodeEveryCommand .rReset rfl,
    decodeEncodeEveryCommand .rIscomplete rfl, decodeEncodeEveryCommand .rReceive rfl,
    decodeEncodeEveryCommand .rRdcount rfl, decodeEncodeEveryCommand (.rRdbuf 9) rfl⟩

end Sys2Proof

namespace Sys2Proof.Machine

/-! ## Illegal words (R96) -/

/-- The words R96 lists have a `Z` bit set in the format of whatever command has their opcode. -/
theorem reservedBits_ne_zero_of_illegalWord {c : Word} {i : Instr} (h : IllegalWord c) (hopc : opcField c = i.opcode) :
    i.reservedBits c ≠ 0 := by
  rw [Ne, reservedBits_eq_zero_iff]
  have hnum : c.toNat / 2 ^ 24 = i.opcode.toNat := by rw [← hopc, toNat_opcField]
  unfold IllegalWord at h
  cases i <;> simp only [Instr.opcode, Instr.operandBits, BitVec.toNat_ofNat] at hnum ⊢ <;> omega

theorem decode_of_illegalWord {c : Word} (h : IllegalWord c) : ∃ e, decode c = .error e := by
  by_cases hlisted : ∃ i : Instr, opcField c = i.opcode
  · obtain ⟨i, hi⟩ := hlisted
    exact ⟨_, by rw [decode_of_opcField hi, if_neg (reservedBits_ne_zero_of_illegalWord h hi)]⟩
  · exact ⟨_, decode_of_unlisted (not_exists.1 hlisted)⟩

/-- A command of the interface whose word is illegal is answered, and nothing else is done. -/
theorem step_of_decode_error {s : State} {c : Command} {rest : List HostEvent} {e : DecodeError}
    (hp : s.pending = .command c :: rest) (hwf : c.wf) (hd : decode c.word = .error e) :
    step s = .next (answerIllegal (acceptCommand c rest s)) := by
  rw [step, hp]
  dsimp only
  rw [if_pos hwf, hd]

/-- Settles O5: an illegal word decodes to an error, which the step answers. -/
theorem illegalWordIsAnsweredAndChangesNothing : Obligations.IllegalWordIsAnsweredAndChangesNothing := by
  intro s c rest hp hwf hill
  obtain ⟨e, hd⟩ := decode_of_illegalWord hill
  rw [step_of_decode_error hp hwf hd]
  rfl

/-! ## The bytes of a header (R81, R85) -/

/-- Settles O6, by the bytes of its two 16-bit fields. -/
theorem encodedHeaderBytes : Obligations.EncodedHeaderBytes := by
  intro seq pf len
  constructor
  · obtain ⟨s0, s1, hseq, -, hs, -⟩ := u16Bytes_spec .big seq
    obtain ⟨l0, l1, hlen, -, hl, -⟩ := u16Bytes_spec .big len
    obtain ⟨hs0, hs1⟩ := hs rfl
    obtain ⟨hl0, hl1⟩ := hl rfl
    simp [encodeHeader, hseq, hlen, hs0, hs1, hl0, hl1]
  · obtain ⟨s0, s1, hseq, -, -, hs⟩ := u16Bytes_spec .little seq
    obtain ⟨l0, l1, hlen, -, -, hl⟩ := u16Bytes_spec .little len
    obtain ⟨hs0, hs1⟩ := hs rfl
    obtain ⟨hl0, hl1⟩ := hl rfl
    simp [encodeHeader, hseq, hlen, hs0, hs1, hl0, hl1]

/-! ## The part/final byte of a fragment (R82) -/

theorem toNat_partOf (b : Byte) : (partOf b).toNat = b.toNat % 128 := by
  have hmask : b.toNat &&& (2 ^ 7 - 1) = b.toNat % 2 ^ 7 := Nat.and_two_pow_sub_one_eq_mod b.toNat 7
  rw [partOf, BitVec.toNat_setWidth, BitVec.toNat_and]
  change (b.toNat &&& (2 ^ 7 - 1)) % 2 ^ 7 = _
  rw [hmask, Nat.mod_mod]
  rfl

theorem isFinalOf_eq (b : Byte) : isFinalOf b = decide (128 ≤ b.toNat) := by
  have hand : b &&& BitVec.twoPow 8 7 = if b.getLsbD 7 then BitVec.twoPow 8 7 else 0#8 := BitVec.and_twoPow b 7
  have hmsb : b.getLsbD 7 = decide (128 ≤ b.toNat) := (BitVec.msb_eq_getLsbD_last b).symm.trans (BitVec.msb_eq_decide b)
  change (b &&& BitVec.twoPow 8 7 != 0#8) = _
  rw [hand, ← hmsb]
  cases b.getLsbD 7 <;> rfl

/-- The byte a blob's fragment carries: its part, and whether it is the last (40_writer.md R118). -/
def blobPartByte (i : Nat) (fin : Bool) : Byte := BitVec.ofNat 8 (i + if fin then 128 else 0)

theorem toNat_blobPartByte {i : Nat} (h : i < 128) (fin : Bool) :
    (blobPartByte i fin).toNat = i + if fin then 128 else 0 := by
  rw [blobPartByte, BitVec.toNat_ofNat]
  split <;> omega

theorem toNat_partOf_blobPartByte {i : Nat} (h : i < 128) (fin : Bool) : (partOf (blobPartByte i fin)).toNat = i := by
  rw [toNat_partOf, toNat_blobPartByte h]
  split <;> omega

theorem isFinalOf_blobPartByte {i : Nat} (h : i < 128) (fin : Bool) : isFinalOf (blobPartByte i fin) = fin := by
  rw [isFinalOf_eq, toNat_blobPartByte h]
  cases fin <;> simp [h]

/-! ## Receiving an encoded fragment (41_reassembler.md R142 to R153) -/

/-- The bytes of an encoded header stand for its fields (R85, R86). -/
theorem headerAt_of_encodeHeader {s : State} {seq : Half} {pf : Byte} {len : Half} {rest : List Byte}
    (h : s.inp.data.drop s.inp.pos = encodeHeader s.params.byteOrder seq pf len ++ rest) :
    HeaderAt s ⟨seq, partOf pf, isFinalOf pf, len⟩ rest := by
  obtain ⟨b0, b1, hseq, hseqv, -⟩ := u16Bytes_spec s.params.byteOrder seq
  obtain ⟨b3, b4, hlen, hlenv, -⟩ := u16Bytes_spec s.params.byteOrder len
  refine ⟨b0, b1, pf, b3, b4, by simp [h, encodeHeader, hseq, hlen], ?_⟩
  rw [decodeHeader, hseqv, hlenv]

/-- Steps 5 to 7 with the length and the whole payload there, and room for it (R149 to R152). -/
theorem acceptFragment_of_payload {s : State} {t : Tentative} {fin : Bool} {in2 : InStream} {b3 b4 : Byte}
    {payload post : List Byte} (hd : in2.data.drop in2.pos = b3 :: b4 :: (payload ++ post))
    (hlen : payload.length = (u16Value s.params.byteOrder b3 b4).toNat)
    (hfit : t.count.toNat + payload.length ≤ s.params.maxOctetCount.val) :
    acceptFragment t fin in2 s = respond .ok 0
      { s with
        r := commitFragment t fin (u16Value s.params.byteOrder b3 b4) payload s.r
        inp := ⟨in2.data, in2.pos + 2 + payload.length⟩ } := by
  have hafter : in2.data.drop (in2.pos + 2) = payload ++ post := drop_after (bs := [b3, b4]) hd
  have hread : inReadOctets payload.length ⟨in2.data, in2.pos + 2⟩ =
      some (payload, ⟨in2.data, in2.pos + 2 + payload.length⟩) := inRead_of_drop hafter rfl
  rw [acceptFragment, inReadU16_of_drop hd]
  dsimp only
  rw [← hlen, if_neg (Nat.not_lt_of_le hfit), hread]

/-- A selected fragment that is whole and fits is committed (R142 to R153). -/
theorem receive_of_selected {s : State} {h : Header} {t : Tentative} {payload post : List Byte}
    (hh : HeaderAt s h (payload ++ post)) (hlen : payload.length = h.len.toNat)
    (hsel : selectFragment s.r h.seq h.part = some t)
    (hfit : t.count.toNat + payload.length ≤ s.params.maxOctetCount.val) :
    receive s = respond .ok 0
      { s with
        r := commitFragment t h.fin h.len payload s.r
        inp := ⟨s.inp.data, s.inp.pos + 5 + payload.length⟩ } := by
  obtain ⟨b3, b4, hprefix, hlenv⟩ := hh.toPrefix
  rw [receive_of_prefix hprefix, hsel]
  dsimp only
  rw [acceptFragment_of_payload (post := post) hprefix.drop (by rw [hlenv, hlen]) hfit, hlenv]

theorem exec_rReceive_of_live {s : State} (hf : s.r.fault = .none) (hl : s.r.life = .live) :
    exec .rReceive s = .next (receive s) := by
  rw [exec, execRReceive, reassemblerCommand_of_none hf, whenReassemblerLive_of_live hl]

/-- A `R.RECEIVE` of the datagram `d`, read from its start. -/
theorem step_receive_of_live {s : State} {d : List Byte} {rest : List HostEvent}
    (hp : s.pending = receiveCommands [d] ++ rest) (hf : s.r.fault = .none) (hl : s.r.life = .live) :
    step s = .next (receive (acceptCommand ⟨encode .rReceive, ⟨d, 0⟩, ⟨[], 0⟩⟩ rest s)) :=
  (stepRunsTheDecodedCommand s _ rest _ hp (Nat.zero_le _) (decodeEncodeEveryCommand .rReceive rfl)).trans
    (exec_rReceive_of_live hf hl)

/-! ## What the Reassembler has stored of a blob -/

/-- The registers count the bytes `bs` of sequence `seq`, which stand in the cells from 0 on. -/
structure Holds (seq : Half) (bs : List Byte) (r : Reassembler) : Prop where
  life   : r.life = .live
  fault  : r.fault = .none
  expSeq : r.expSeq = seq
  count  : r.count.toNat = bs.length
  cells  : ∀ a, a < bs.length → r.buf.read a = bs[a]?

/-- Part `i` of sequence `seq` would be accepted, behind the bytes `bs` already stored. For part 0 no sequence need be in
progress (R146), and `bs` is empty. -/
structure Awaits (seq : Half) (i : Nat) (bs : List Byte) (r : Reassembler) : Prop where
  life     : r.life = .live
  fault    : r.fault = .none
  selected : ∀ part : PartIndex, part.toNat = i → SelectedAt r seq part bs.length
  cells    : ∀ a, a < bs.length → r.buf.read a = bs[a]?

/-- The blob is reassembled: its bytes are stored and the sequence is complete (R152). -/
structure Reassembled (seq : Half) (blob : List Byte) (r : Reassembler) : Prop extends Holds seq blob r where
  complete : r.complete = true
  recv     : r.recv = false
  expPart  : r.expPart = 0

/-- A Reassembler that is not receiving `seq` awaits its part 0 (R145, R146). -/
theorem awaits_zero {seq : Half} {r : Reassembler} (hl : r.life = .live) (hf : r.fault = .none)
    (hs : seq ≠ r.expSeq ∨ r.recv = false) : Awaits seq 0 [] r :=
  ⟨hl, hf, fun _ hp => .inl ⟨⟨hs, hp⟩, rfl⟩, nofun⟩

/-- A Reassembler that holds the parts before part `i` of the sequence in progress awaits it (R145, R147). -/
theorem Holds.awaits {seq : Half} {i : Nat} {bs : List Byte} {r : Reassembler} (h : Holds seq bs r)
    (hrecv : r.recv = true) (hpart : r.expPart.toNat = i) : Awaits seq i bs r :=
  ⟨h.life, h.fault, fun _ hp => .inr ⟨⟨h.expSeq.symm, hrecv, hp.trans hpart.symm⟩, h.count.symm⟩, h.cells⟩

/-- A store right behind `bs` extends what reads from 0 on. -/
theorem read_memWrite_append {m : Memory} {bs : List Byte} (h : ∀ a, a < bs.length → m.read a = bs[a]?)
    (cs : List Byte) (a : Nat) (ha : a < (bs ++ cs).length) : (m.memWrite bs.length cs).read a = (bs ++ cs)[a]? := by
  rw [List.length_append] at ha
  rw [read_memWrite]
  by_cases hlt : a < bs.length
  · rw [if_neg (by omega), h a hlt, List.getElem?_append_left hlt]
  · rw [if_pos (by omega), List.getElem?_append_right (by omega)]

/-- A commit behind the stored bytes leaves them and the payload stored (R151). -/
theorem holds_commitFragment {p : Params} {seq : Half} {i : Nat} {bs payload : List Byte} {r : Reassembler}
    {t : Tentative} {len : Half} (fin : Bool) (h : Awaits seq i bs r) (hseq : t.expSeq = seq)
    (hcount : t.count.toNat = bs.length) (hlen : payload.length = len.toNat)
    (hfit : bs.length + payload.length ≤ p.maxOctetCount.val) :
    Holds seq (bs ++ payload) (commitFragment t fin len payload r) where
  life   := h.life
  fault  := h.fault
  expSeq := hseq
  count  := by
    rw [commitFragment_count, toNat_count_add (p := p) (by omega), hcount, List.length_append, hlen]
  cells  := by
    rw [commitFragment_buf, hcount]
    exact read_memWrite_append h.cells payload

/-! ## One datagram (R84, 41_reassembler.md R142) -/

/-- The datagram of part `i` of a blob: its header, then its slice (R84). -/
def blobDatagram (o : ByteOrder) (seq : Half) (i : Nat) (fin : Bool) (slice : List Byte) : List Byte :=
  encodeHeader o seq (blobPartByte i fin) (BitVec.ofNat 16 slice.length) ++ slice

/-- The length field of a slice that a header can announce (R81). -/
theorem toNat_ofNat_length {bs : List Byte} (h : bs.length < 2 ^ 16) : (BitVec.ofNat 16 bs.length).toNat = bs.length := by
  rw [BitVec.toNat_ofNat, Nat.mod_eq_of_lt h]

theorem length_blobDatagram (o : ByteOrder) (seq : Half) (i : Nat) (fin : Bool) (slice : List Byte) :
    (blobDatagram o seq i fin slice).length = 5 + slice.length := by
  rw [blobDatagram, List.length_append, length_encodeHeader]

/-- The awaited datagram, with room for its slice, is read to its end and its slice committed (R142 to R153). -/
theorem receive_blobDatagram {s : State} {seq : Half} {i : Nat} {fin : Bool} {slice : List Byte} {t : Tentative}
    (hinp : s.inp = ⟨blobDatagram s.params.byteOrder seq i fin slice, 0⟩) (hi : i < 128)
    (hslice : slice.length < 2 ^ 16) (hsel : selectFragment s.r seq (partOf (blobPartByte i fin)) = some t)
    (hfit : t.count.toNat + slice.length ≤ s.params.maxOctetCount.val) :
    receive s = respond .ok 0
      { s with
        r := commitFragment t fin (BitVec.ofNat 16 slice.length) slice s.r
        inp := ⟨s.inp.data, s.inp.data.length⟩ } := by
  have hheader : HeaderAt s
      ⟨seq, partOf (blobPartByte i fin), isFinalOf (blobPartByte i fin), BitVec.ofNat 16 slice.length⟩ (slice ++ []) :=
    headerAt_of_encodeHeader (by simp [hinp, blobDatagram])
  have hend : s.inp.pos + 5 + slice.length = s.inp.data.length := by
    rw [hinp, length_blobDatagram, Nat.zero_add]
  rw [receive_of_selected hheader (toNat_ofNat_length hslice).symm hsel hfit, isFinalOf_blobPartByte hi, hend]

/-- The response to a datagram that is received from its start and read to its end. -/
def okResponse (d : List Byte) : Response := ⟨.ok, 0, ⟨d, d.length⟩, ⟨[], 0⟩⟩

/-- From `s` to `t` the datagrams `ds` were all answered `OK`, with the Writer and the parameters kept. -/
structure AllAnsweredOk (ds : List (List Byte)) (rest : List HostEvent) (s t : State) : Prop where
  w         : t.w = s.w
  params    : t.params = s.params
  pending   : t.pending = rest
  responses : t.responses = (ds.map okResponse).reverse ++ s.responses

theorem AllAnsweredOk.cons {d : List Byte} {ds : List (List Byte)} {rest rest' : List HostEvent} {s u t : State}
    (h : AllAnsweredOk [d] rest' s u) (h' : AllAnsweredOk ds rest u t) : AllAnsweredOk (d :: ds) rest s t :=
  ⟨h'.w.trans h.w, h'.params.trans h.params, h'.pending, by simp [h'.responses, h.responses]⟩

/-- The step on the awaited datagram: one that is not the last leaves the next part awaited, the last one completes the
blob. -/
theorem step_blobDatagram {s : State} {seq : Half} {i : Nat} {bs slice : List Byte} {fin : Bool}
    {rest : List HostEvent} (h : Awaits seq i bs s.r) (hi : i < 128) (hslice : slice.length < 2 ^ 16)
    (hfit : bs.length + slice.length ≤ s.params.maxOctetCount.val)
    (hp : s.pending = receiveCommands [blobDatagram s.params.byteOrder seq i fin slice] ++ rest) :
    ∃ u, step s = .next u ∧ AllAnsweredOk [blobDatagram s.params.byteOrder seq i fin slice] rest s u ∧
      (fin = false → Awaits seq (i + 1) (bs ++ slice) u.r) ∧ (fin = true → Reassembled seq (bs ++ slice) u.r) := by
  obtain ⟨t, hsel, hseq, hpart, hrecv, hcount⟩ :=
    selectFragment_of_selectedAt (h.selected _ (toNat_partOf_blobPartByte hi fin))
  have hholds := holds_commitFragment fin h hseq hcount (toNat_ofNat_length hslice).symm hfit
  have hstep := (step_receive_of_live hp h.fault h.life).trans
    (congrArg _ (receive_blobDatagram rfl hi hslice hsel (hcount.symm ▸ hfit)))
  refine ⟨_, hstep, ⟨rfl, rfl, rfl, rfl⟩, ?_, ?_⟩
  · rintro rfl
    refine hholds.awaits hrecv ?_
    rw [commitFragment_expPart, if_neg Bool.false_ne_true, toNat_part_succ (by omega), hpart,
      toNat_partOf_blobPartByte hi]
  · rintro rfl
    exact ⟨hholds, rfl, rfl, rfl⟩

/-! ## All datagrams of a blob -/

/-- The datagrams of the slices of a blob from part `i` on. -/
def blobDatagramsFrom (o : ByteOrder) (seq : Half) (i : Nat) (slices : List (List Byte)) : List (List Byte) :=
  List.zipWith (· ++ ·) (blobHeaders o seq i (slices.map fun b => BitVec.ofNat 16 b.length)) slices

/-- The first datagram is final exactly when no slice follows. -/
theorem blobDatagramsFrom_cons (o : ByteOrder) (seq : Half) (i : Nat) (slice : List Byte) (slices : List (List Byte)) :
    blobDatagramsFrom o seq i (slice :: slices) =
      blobDatagram o seq i slices.isEmpty slice :: blobDatagramsFrom o seq (i + 1) slices := by
  simp [blobDatagramsFrom, blobHeaders, blobDatagram, blobPartByte]

/-- The datagrams from part `i` on, received one after the other behind the bytes `bs` of the parts before, complete the
blob. -/
theorem runSteps_blobDatagramsFrom {seq : Half} {rest : List HostEvent} {slices : List (List Byte)} (hne : slices ≠ [])
    (hslices : ∀ b ∈ slices, b.length < 2 ^ 16) :
    ∀ {s : State} {i : Nat} {bs : List Byte}, Awaits seq i bs s.r → i + slices.length ≤ 128 →
      bs.length + slices.flatten.length ≤ s.params.maxOctetCount.val →
      s.pending = receiveCommands (blobDatagramsFrom s.params.byteOrder seq i slices) ++ rest →
      ∃ t, runSteps slices.length s = .next t ∧ Reassembled seq (bs ++ slices.flatten) t.r ∧
        AllAnsweredOk (blobDatagramsFrom s.params.byteOrder seq i slices) rest s t := by
  induction slices with
  | nil => exact absurd rfl hne
  | cons slice slices ih =>
    obtain ⟨hslice, hslices⟩ := List.forall_mem_cons.1 hslices
    intro s i bs h hi hfit hp
    rw [List.length_cons] at hi
    rw [List.flatten_cons, List.length_append] at hfit
    rw [blobDatagramsFrom_cons] at hp ⊢
    obtain ⟨u, hstep, hanswered, hmore, hlast⟩ := step_blobDatagram
      (rest := receiveCommands (blobDatagramsFrom s.params.byteOrder seq (i + 1) slices) ++ rest)
      h (by omega) hslice (by omega) hp
    rw [List.length_cons, runSteps_succ hstep, List.flatten_cons, ← List.append_assoc]
    cases slices with
    | nil => exact ⟨u, rfl, by simpa using hlast rfl, hanswered⟩
    | cons slice' slices =>
      obtain ⟨t, hrun, hdone, hanswered'⟩ := ih (List.cons_ne_nil _ _) hslices (hmore rfl) (by omega)
        (by rw [hanswered.params, List.length_append]; omega) (by rw [hanswered.params]; exact hanswered.pending)
      rw [hanswered.params] at hanswered'
      exact ⟨t, hrun, hdone, hanswered.cons hanswered'⟩

/-- Settles O37: the run over the datagrams from part 0 on, with nothing stored before. -/
theorem blobSurvivesTheRoundTrip : Obligations.BlobSurvivesTheRoundTrip := by
  intro s seq slices rest hf hl hs h1 h128 hslices hfit hp
  obtain ⟨t, hrun, hdone, hanswered⟩ := runSteps_blobDatagramsFrom (List.ne_nil_of_length_pos h1) hslices
    (awaits_zero hl hf hs) (by omega) (by simpa using hfit) hp
  exact ⟨t, hrun, hdone.complete, hdone.recv, hdone.expPart, hdone.expSeq, hdone.count, hdone.life, hdone.fault,
    hdone.cells, hanswered.w, hanswered.params, hanswered.pending, hanswered.responses⟩

end Sys2Proof.Machine

/-! PROOFS of the obligations of 40_writer.md about single commands: `W.INIT` (R110), `W.ADVSEQ` (R112), and the three ends of
`W.WRHDR` on a `Live` Writer with its part/final byte (R114 to R117). -/

namespace Sys2Proof.Machine

/-! ## The part/final byte (R115) -/

theorem partOf_eq_setWidth (b : Byte) : partOf b = b.setWidth 7 :=
  BitVec.eq_of_toNat_eq (by rw [toNat_partOf, BitVec.toNat_setWidth])

theorem isFinalOf_eq_msb (b : Byte) : isFinalOf b = b.msb :=
  (isFinalOf_eq b).trans (BitVec.msb_eq_decide b).symm

/-- A byte as a number, from the two fields it carries (30_encoding.md R82). -/
theorem toNat_eq_partOf_add_isFinalOf (b : Byte) :
    b.toNat = (partOf b).toNat + if isFinalOf b = true then 128 else 0 := by
  have := b.isLt
  simp only [toNat_partOf, isFinalOf_eq, decide_eq_true_eq]
  split <;> omega

@[simp] theorem setWidth_finalBit (f : Bool) : (finalBit f).setWidth 7 = 0#7 := by
  cases f <;> rfl

@[simp] theorem msb_finalBit (f : Bool) : (finalBit f).msb = f := by
  cases f <;> rfl

theorem partOf_pfByte (mode : PartOverflowMode) (p : BitVec 8) (f : Bool) : partOf (pfByte mode p f) = partOf p := by
  cases mode with
  | error =>
    have hmask : p.setWidth 7 &&& 0x7F#7 = p.setWidth 7 := BitVec.and_allOnes
    simpa [pfByte, partOf_eq_setWidth, BitVec.setWidth_or, BitVec.setWidth_and] using hmask
  | sourceWrap => simp [pfByte, partOf_eq_setWidth, BitVec.setWidth_or]

theorem isFinalOf_pfByte_error (p : BitVec 8) (f : Bool) : isFinalOf (pfByte .error p f) = f := by
  have hmask : (0x7F#8).msb = false := rfl
  simp [isFinalOf_eq_msb, pfByte, hmask]

theorem isFinalOf_pfByte_sourceWrap (p : BitVec 8) (f : Bool) :
    isFinalOf (pfByte .sourceWrap p f) = (isFinalOf p || f) := by
  simp [isFinalOf_eq_msb, pfByte]

/-- Settles O8: both modes keep the part of `p`; they differ in the flag. -/
theorem partFinalByteOfBothModes : Obligations.PartFinalByteOfBothModes := by
  intro p f
  constructor
  · rw [toNat_eq_partOf_add_isFinalOf, partOf_pfByte, toNat_partOf, isFinalOf_pfByte_error]
  · rw [toNat_eq_partOf_add_isFinalOf, partOf_pfByte, toNat_partOf, isFinalOf_pfByte_sourceWrap, isFinalOf_eq]
    simp [or_comm]

/-! ## `W.INIT` and `W.ADVSEQ` (R110, R112) -/

theorem whenWriterLive_of_uninit {k : State → State} {s : State} (h : s.w.life = .uninit) :
    whenWriterLive k s = raiseWriterFault .useBeforeInit s := by
  simp [whenWriterLive, h]

/-- Settles O15: `W.INIT` has no lifecycle check. -/
theorem wInitStartsTheWriter : Obligations.WInitStartsTheWriter := by
  refine ⟨decodeEncodeEveryCommand .wInit rfl, fun s hf => ?_⟩
  rw [exec, execWInit, writerCommand_of_none hf]
  rfl

/-- Settles O16, by the Writer's lifecycle. -/
theorem wAdvseqAdvancesTheSequence : Obligations.WAdvseqAdvancesTheSequence := by
  refine ⟨decodeEncodeEveryCommand .wAdvseq rfl, fun s hf => ⟨fun hl => ?_, fun hl => ?_⟩⟩
  · refine ⟨s.w.seq + 1, BitVec.toNat_add _ _, ?_⟩
    rw [exec, execWAdvseq, writerCommand_of_none hf, whenWriterLive_of_live hl]
    rfl
  · rw [exec, execWAdvseq, writerCommand_of_none hf, whenWriterLive_of_uninit hl]
    rfl

/-! ## `W.WRHDR` (R114 to R117) -/

theorem exec_wWrhdr_of_live {s : State} (hf : s.w.fault = .none) (hl : s.w.life = .live) (f : Bool) (len : Half) :
    exec (.wWrhdr f len) s = .next (writeHeader f len s) := by
  rw [exec, execWWrhdr, writerCommand_of_none hf, whenWriterLive_of_live hl]

/-- The part overflow is decided before anything is written (R116, 60_exceptions.md R190). -/
theorem writeHeader_of_part_overflow {s : State} (h : 128 ≤ s.w.part.toNat ∧ s.params.overflowMode = .error)
    (f : Bool) (len : Half) : writeHeader f len s = respond .partOverflow 0 s :=
  if_pos h

/-- Without a part overflow and with room for the header, it is written (R114). -/
theorem writeHeader_of_room {s : State} (hpart : s.params.overflowMode = .error → s.w.part.toNat < 128)
    (hcap : 5 ≤ s.out.cap) (f : Bool) (len : Half) :
    writeHeader f len s = respond .ok 0
      { s with
        w := { s.w with part := s.w.part + 1 }
        out := ⟨s.out.data ++ encodeHeader s.params.byteOrder s.w.seq (pfByte s.params.overflowMode s.w.part f) len,
                s.out.cap - 5⟩ } := by
  rcases writeHeader_cases f len s with ⟨⟨hge, hmode⟩, -⟩ | ⟨-, hlt, -⟩ | ⟨-, -, e⟩
  · exact absurd (hpart hmode) (Nat.not_lt_of_le hge)
  · exact absurd hcap (Nat.not_le_of_lt hlt)
  · exact e

/-- Without a part overflow and without room for the header, a prefix of it is drawn (R117). -/
theorem writeHeader_of_no_room {s : State} (hpart : s.params.overflowMode = .error → s.w.part.toNat < 128)
    (hcap : s.out.cap < 5) (f : Bool) (len : Half) :
    writeHeader f len s = respond .streamOverflow 0
      (drawOutputPrefix (encodeHeader s.params.byteOrder s.w.seq (pfByte s.params.overflowMode s.w.part f) len) s) := by
  rcases writeHeader_cases f len s with ⟨⟨hge, hmode⟩, -⟩ | ⟨-, -, e⟩ | ⟨-, hle, -⟩
  · exact absurd (hpart hmode) (Nat.not_lt_of_le hge)
  · exact e
  · exact absurd hle (Nat.not_le_of_lt hcap)

/-- Settles O18: the check of the part counter comes first, so the capacity plays no role. -/
theorem wWrhdrPartOverflowWritesNothing : Obligations.WWrhdrPartOverflowWritesNothing := by
  intro s f len hf hl hmode hpart
  rw [exec_wWrhdr_of_live hf hl, writeHeader_of_part_overflow ⟨hpart, hmode⟩]
  rfl

/-- Settles O17: the 8-bit sum is the part counter modulo 256. -/
theorem wWrhdrAppendsTheHeader : Obligations.WWrhdrAppendsTheHeader := by
  intro s f len hf hl hcap hpart
  refine ⟨s.w.part + 1, BitVec.toNat_add _ _, ?_⟩
  rw [exec_wWrhdr_of_live hf hl, writeHeader_of_room hpart hcap]
  rfl

/-- Settles O19: the length of the prefix is the one `drawOutputPrefix` draws. -/
theorem wWrhdrStreamOverflowKeepsRegisters : Obligations.WWrhdrStreamOverflowKeepsRegisters := by
  intro s f len hf hl hcap hpart
  refine ⟨Config.freeNat s.draws % (min s.out.cap 4 + 1), Nat.le_of_lt_succ (Nat.mod_lt _ (Nat.succ_pos _)), ?_⟩
  rw [exec_wWrhdr_of_live hf hl, writeHeader_of_no_room hpart hcap]
  rfl

end Sys2Proof.Machine

/-! PROOFS of the obligations of 41_reassembler.md about single commands: the lifecycle and readout commands (R130 to R140,
R160, R166), and each end of `R.RECEIVE` on a `Live` Reassembler (R142 to R154). -/

namespace Sys2Proof.Machine

/-! ## `check_live()` (60_exceptions.md R185, R187) -/

theorem whenReassemblerLive_of_uninit {g k : State → State} {s : State} (h : s.r.life = .uninit) :
    whenReassemblerLive g k s = raiseReassemblerFault .useBeforeInit (g s) := by
  simp [whenReassemblerLive, h]

theorem whenReassemblerLive_of_destroyed {g k : State → State} {s : State} (h : s.r.life = .destroyed) :
    whenReassemblerLive g k s = raiseReassemblerFault .useAfterDestroy (g s) := by
  simp [whenReassemblerLive, h]

section CheckedCommand

variable {i : Instr} {k : State → State} {s : State}
  (hexec : exec i s = reassemblerCommand (whenReassemblerLive id k) s) (hf : s.r.fault = .none)

include hexec hf

/-- On a `Live` unit a command that begins with `check_live()` runs its body. -/
theorem exec_checked_of_live (hl : s.r.life = .live) : exec i s = .next (k s) := by
  rw [hexec, reassemblerCommand_of_none hf, whenReassemblerLive_of_live hl]

/-- A command that begins with `check_live()` and draws nothing before it takes the two lifecycle faults. -/
theorem faultsUnlessLive_of_checked : FaultsUnlessLive i s := by
  constructor
  · intro hl
    rw [hexec, reassemblerCommand_of_none hf, whenReassemblerLive_of_uninit hl]
    rfl
  · intro hl
    rw [hexec, reassemblerCommand_of_none hf, whenReassemblerLive_of_destroyed hl]
    rfl

end CheckedCommand

/-! ## Lifecycle commands and the readout of registers (R130 to R140, R160) -/

/-- Settles O21, by the Reassembler's lifecycle. -/
theorem rInitStartsTheReassembler : Obligations.RInitStartsTheReassembler := by
  refine ⟨decodeEncodeEveryCommand .rInit rfl, fun s hf => ?_⟩
  rw [exec, execRInit, reassemblerCommand_of_none hf, hf]
  cases hl : s.r.life with
  | live => exact ⟨fun hne => absurd rfl hne, fun _ => rfl⟩
  | uninit | destroyed => exact ⟨fun _ => ⟨Memory.allUnknown, read_nil, rfl⟩, nofun⟩

/-- Settles O22, by the Reassembler's lifecycle; the free values are those `destroyRegisters` draws. -/
theorem rDestroyForgetsEverything : Obligations.RDestroyForgetsEverything := by
  refine ⟨decodeEncodeEveryCommand .rDestroy rfl, fun s hf => ?_⟩
  rw [exec, execRDestroy, reassemblerCommand_of_none hf]
  cases hl : s.r.life with
  | live =>
    dsimp only [destroyRegisters]
    rw [hf]
    exact ⟨fun _ => ⟨_, _, _, _, _, Memory.allUnknown, read_nil, rfl⟩, nofun, nofun⟩
  | destroyed => exact ⟨nofun, fun _ => rfl, nofun⟩
  | uninit => exact ⟨nofun, nofun, fun _ => rfl⟩

/-- Settles O23: `check_live()`, then the body that clears the four registers. -/
theorem rResetClearsTheCounters : Obligations.RResetClearsTheCounters := by
  refine ⟨decodeEncodeEveryCommand .rReset rfl, fun s hf => ⟨fun hl => ?_, faultsUnlessLive_of_checked rfl hf⟩⟩
  rw [exec_checked_of_live (i := .rReset) rfl hf hl]
  rfl

theorem bitValue_eq (b : Bool) : bitValue b = if b = true then 1 else 0 := by
  cases b <;> rfl

/-- Settles O24: `check_live()`, then the flag as a word. -/
theorem rIscompleteAnswersTheFlag : Obligations.RIscompleteAnswersTheFlag := by
  refine ⟨decodeEncodeEveryCommand .rIscomplete rfl, fun s hf => ⟨fun hl => ?_, faultsUnlessLive_of_checked rfl hf⟩⟩
  rw [exec_checked_of_live (i := .rIscomplete) rfl hf hl, bitValue_eq]
  rfl

/-- Settles O25: `check_live()`, then the count. -/
theorem rRdcountAnswersTheCount : Obligations.RRdcountAnswersTheCount := by
  refine ⟨decodeEncodeEveryCommand .rRdcount rfl, fun s hf => ⟨fun hl => ?_, faultsUnlessLive_of_checked rfl hf⟩⟩
  rw [exec_checked_of_live (i := .rRdcount) rfl hf hl]
  rfl

/-! ## `R.RDBUF` (R166) -/

/-- `ADDR` zero-extended is the word with bits 31:24 cleared (30_encoding.md R93, R98). -/
theorem setWidth_lowField (c : Word) : (lowField c).setWidth 32 = c &&& 0x00FFFFFF#32 := by
  apply BitVec.eq_of_toNat_eq
  rw [BitVec.toNat_setWidth_of_le (by decide), toNat_lowField, BitVec.toNat_and]
  exact (Nat.and_two_pow_sub_one_eq_mod c.toNat 24).symm

theorem decode_rRdbuf {c : Word} (h : c &&& 0xFF000000#32 = 0x17000000#32) :
    decode c = .ok (.rRdbuf (c &&& 0x00FFFFFF#32)) := by
  rw [decode_of_row_matches (i := .rRdbuf 0) (beq_iff_eq.2 h), Instr.withOperandsOf, setWidth_lowField]

theorem readBuffer_of_ge {addr : Word} {s : State} (h : s.params.maxOctetCount.val ≤ addr.toNat) :
    readBuffer addr s = respond .addressOutOfRange 0 s := if_pos h

theorem readBuffer_of_lt {addr : Word} {s : State} (h : addr.toNat < s.params.maxOctetCount.val) :
    readBuffer addr s = respond .ok ((memRead addr.toNat s).1.setWidth 32) (memRead addr.toNat s).2 :=
  if_neg (Nat.not_le_of_lt h)

/-- Settles O26: a known cell is read, an `unknown` one draws its byte. -/
theorem rRdbufReadsOneCell : Obligations.RRdbufReadsOneCell := by
  refine ⟨fun c => decode_rRdbuf, fun s addr hf => ⟨fun hl => ?_, faultsUnlessLive_of_checked rfl hf⟩⟩
  rw [exec_checked_of_live (i := .rRdbuf addr) rfl hf hl]
  refine ⟨fun hge => by rw [readBuffer_of_ge hge]; rfl, fun hlt => ?_⟩
  rw [readBuffer_of_lt hlt]
  rcases memRead_cases addr.toNat s with ⟨b, hb, e⟩ | ⟨hnone, e⟩ <;> rw [e]
  · refine ⟨fun b' hb' => ?_, fun hnone => absurd (hb.symm.trans hnone) nofun⟩
    cases hb.symm.trans hb'
    rfl
  · exact ⟨fun b' hb' => absurd (hnone.symm.trans hb') nofun, fun _ => ⟨_, rfl⟩⟩

/-! ## The ignore path of `R.RECEIVE` (R148) -/

/-- The bytes left behind bytes that stand at a position. -/
theorem length_after {data bs rest : List Byte} {pos : Nat} (h : data.drop pos = bs ++ rest) :
    data.length - (pos + bs.length) = rest.length := by
  rw [← drop_after h, List.length_drop]

section Ignore

variable {s : State} {in2 : InStream} {b3 b4 : Byte} {rest : List Byte}

theorem ignoreFragment_of_prefixOnly (hmode : s.params.ignoreMode = .prefixOnly) :
    ignoreFragment in2 s = respond .ok 0 { s with inp := in2 } := by
  simp only [ignoreFragment, hmode]

theorem ignoreFragment_of_no_length (hmode : s.params.ignoreMode = .full)
    (hshort : in2.data.length - in2.pos < 2) : ignoreFragment in2 s = failReceive .streamUnderflow s := by
  simp only [ignoreFragment, hmode, inReadU16_of_lt hshort]

theorem ignoreFragment_of_payload (hmode : s.params.ignoreMode = .full)
    (hd : in2.data.drop in2.pos = b3 :: b4 :: rest)
    (hlen : (u16Value s.params.byteOrder b3 b4).toNat ≤ rest.length) :
    ignoreFragment in2 s = respond .ok 0
      { s with inp := ⟨in2.data, in2.pos + 2 + (u16Value s.params.byteOrder b3 b4).toNat⟩ } := by
  have hleft : in2.data.length - (in2.pos + 2) = rest.length := length_after (bs := [b3, b4]) hd
  have hskip : inSkip (u16Value s.params.byteOrder b3 b4).toNat ⟨in2.data, in2.pos + 2⟩ = some _ :=
    inSkip_of_le (hlen.trans_eq hleft.symm)
  simp only [ignoreFragment, hmode, inReadU16_of_drop hd, hskip]

theorem ignoreFragment_of_short_payload (hmode : s.params.ignoreMode = .full)
    (hd : in2.data.drop in2.pos = b3 :: b4 :: rest)
    (hshort : rest.length < (u16Value s.params.byteOrder b3 b4).toNat) :
    ignoreFragment in2 s = failReceive .streamUnderflow s := by
  have hleft : in2.data.length - (in2.pos + 2) = rest.length := length_after (bs := [b3, b4]) hd
  have hskip : inSkip (u16Value s.params.byteOrder b3 b4).toNat ⟨in2.data, in2.pos + 2⟩ = none :=
    inSkip_of_lt (hleft.trans_lt hshort)
  simp only [ignoreFragment, hmode, inReadU16_of_drop hd, hskip]

end Ignore

/-! ## Steps 5 to 7 of `R.RECEIVE` without a commit (R149, R150) -/

section Accept

variable {s : State} {t : Tentative} {fin : Bool} {in2 : InStream} {b3 b4 : Byte} {rest : List Byte}

theorem acceptFragment_of_no_length (hshort : in2.data.length - in2.pos < 2) :
    acceptFragment t fin in2 s = failReceive .streamUnderflow s := by
  simp only [acceptFragment, inReadU16_of_lt hshort]

/-- The capacity is checked before the payload is read (R150). -/
theorem acceptFragment_of_overflow (hd : in2.data.drop in2.pos = b3 :: b4 :: rest)
    (hover : s.params.maxOctetCount.val < t.count.toNat + (u16Value s.params.byteOrder b3 b4).toNat) :
    acceptFragment t fin in2 s = failReceive .capacityExceeded s := by
  simp only [acceptFragment, inReadU16_of_drop hd, if_pos hover]

theorem acceptFragment_of_short_payload (hd : in2.data.drop in2.pos = b3 :: b4 :: rest)
    (hfit : t.count.toNat + (u16Value s.params.byteOrder b3 b4).toNat ≤ s.params.maxOctetCount.val)
    (hshort : rest.length < (u16Value s.params.byteOrder b3 b4).toNat) :
    acceptFragment t fin in2 s = failReceive .streamUnderflow
      { s with
        r := { s.r with buf := s.r.buf.forget t.count.toNat (u16Value s.params.byteOrder b3 b4).toNat } } := by
  have hleft : in2.data.length - (in2.pos + 2) = rest.length := length_after (bs := [b3, b4]) hd
  have hread : inReadOctets (u16Value s.params.byteOrder b3 b4).toNat ⟨in2.data, in2.pos + 2⟩ = none :=
    inReadOctets_eq_none_iff.2 (hleft.trans_lt hshort)
  simp only [acceptFragment, inReadU16_of_drop hd, if_neg (Nat.not_lt_of_le hfit), hread]

end Accept

/-! ## The body of `R.RECEIVE`, from the bytes at the read position (R143 to R150) -/

/-- Steps 1 and 2 need three bytes (R143). -/
theorem receive_of_short {s : State} (h : s.inp.data.length - s.inp.pos < 3) :
    receive s = failReceive .streamUnderflow s := by
  unfold receive
  cases h1 : inReadU16 s.params.byteOrder s.inp with
  | none => rfl
  | some q =>
    obtain ⟨seq, in1⟩ := q
    obtain ⟨-, rfl⟩ := inReadU16_eq_some h1
    have h2 : inReadU8 (⟨s.inp.data, s.inp.pos + 2⟩ : InStream) = none := inReadU8_of_lt (by dsimp only; omega)
    simp only [h2]

section Receive

variable {s : State} {seq : Half} {part : PartIndex} {fin : Bool} {rest : List Byte} {h : Header} {t : Tentative}

theorem receive_of_ignored (hp : PrefixAt s seq part fin rest) (hign : IsIgnored s.r seq part) :
    receive s = ignoreFragment ⟨s.inp.data, s.inp.pos + 3⟩ s := by
  rw [receive_of_prefix hp, selectFragment_of_ignored hign]

theorem receive_eq_acceptFragment (hp : PrefixAt s seq part fin rest) (hsel : selectFragment s.r seq part = some t) :
    receive s = acceptFragment t fin ⟨s.inp.data, s.inp.pos + 3⟩ s := by
  rw [receive_of_prefix hp, hsel]

theorem receive_of_ignored_prefixOnly (hp : PrefixAt s seq part fin rest) (hign : IsIgnored s.r seq part)
    (hmode : s.params.ignoreMode = .prefixOnly) :
    receive s = respond .ok 0 { s with inp := ⟨s.inp.data, s.inp.pos + 3⟩ } := by
  rw [receive_of_ignored hp hign, ignoreFragment_of_prefixOnly hmode]

theorem receive_of_ignored_payload (hh : HeaderAt s h rest) (hign : IsIgnored s.r h.seq h.part)
    (hmode : s.params.ignoreMode = .full) (hlen : h.len.toNat ≤ rest.length) :
    receive s = respond .ok 0 { s with inp := ⟨s.inp.data, s.inp.pos + 5 + h.len.toNat⟩ } := by
  obtain ⟨b3, b4, hp, hlenv⟩ := hh.toPrefix
  rw [receive_of_ignored hp hign, ignoreFragment_of_payload hmode hp.drop (by rwa [hlenv]), hlenv]

theorem receive_of_ignored_no_length (hp : PrefixAt s seq part fin rest) (hign : IsIgnored s.r seq part)
    (hmode : s.params.ignoreMode = .full) (hshort : rest.length < 2) :
    receive s = failReceive .streamUnderflow s := by
  rw [receive_of_ignored hp hign, ignoreFragment_of_no_length hmode (hp.length.trans_lt hshort)]

theorem receive_of_ignored_short_payload (hh : HeaderAt s h rest) (hign : IsIgnored s.r h.seq h.part)
    (hmode : s.params.ignoreMode = .full) (hshort : rest.length < h.len.toNat) :
    receive s = failReceive .streamUnderflow s := by
  obtain ⟨b3, b4, hp, hlenv⟩ := hh.toPrefix
  rw [receive_of_ignored hp hign, ignoreFragment_of_short_payload hmode hp.drop (by rwa [hlenv])]

theorem receive_of_selected_no_length (hp : PrefixAt s seq part fin rest)
    (hsel : selectFragment s.r seq part = some t) (hshort : rest.length < 2) :
    receive s = failReceive .streamUnderflow s := by
  rw [receive_eq_acceptFragment hp hsel, acceptFragment_of_no_length (hp.length.trans_lt hshort)]

theorem receive_of_selected_overflow (hh : HeaderAt s h rest) (hsel : selectFragment s.r h.seq h.part = some t)
    (hover : s.params.maxOctetCount.val < t.count.toNat + h.len.toNat) :
    receive s = failReceive .capacityExceeded s := by
  obtain ⟨b3, b4, hp, hlenv⟩ := hh.toPrefix
  rw [receive_eq_acceptFragment hp hsel, acceptFragment_of_overflow hp.drop (by rwa [hlenv])]

theorem receive_of_selected_short_payload (hh : HeaderAt s h rest) (hsel : selectFragment s.r h.seq h.part = some t)
    (hfit : t.count.toNat + h.len.toNat ≤ s.params.maxOctetCount.val) (hshort : rest.length < h.len.toNat) :
    receive s = failReceive .streamUnderflow
      { s with r := { s.r with buf := s.r.buf.forget t.count.toNat h.len.toNat } } := by
  obtain ⟨b3, b4, hp, hlenv⟩ := hh.toPrefix
  rw [receive_eq_acceptFragment hp hsel,
    acceptFragment_of_short_payload hp.drop (by rwa [hlenv]) (by rwa [hlenv]), hlenv]

end Receive

/-! ## `R.RECEIVE` on a `Live` Reassembler (R142) -/

/-- A failing end in the terms of R62: `in'.pos` is some position between the read position and the end of the data. -/
theorem exec_rReceive_of_failReceive {s : State} {st : Status} (r' : Reassembler) (hf : s.r.fault = .none)
    (hl : s.r.life = .live) (hpos : s.inp.pos ≤ s.inp.data.length)
    (h : receive s = failReceive st { s with r := r' }) :
    ∃ pos, s.inp.pos ≤ pos ∧ pos ≤ s.inp.data.length ∧
      exec .rReceive s = .next
        { s with
          r := r', inp := ⟨s.inp.data, pos⟩, draws := s.draws + 1
          responses := ⟨st, 0, ⟨s.inp.data, pos⟩, s.out⟩ :: s.responses } := by
  obtain ⟨hge, hle⟩ := drawInputPos_bounds s
  refine ⟨(drawInputPos s).inp.pos, hge, hle hpos, ?_⟩
  rw [exec_rReceive_of_live hf hl, h]
  rfl

/-- Settles O29: step 1 fails. -/
theorem receiveOfAShortPrefixUnderflows : Obligations.ReceiveOfAShortPrefixUnderflows :=
  fun s hf hl hpos hshort => exec_rReceive_of_failReceive s.r hf hl hpos (receive_of_short hshort)

/-- Settles O30, by the ignore mode. -/
theorem receiveOfAnIgnoredFragmentChangesNoRegister : Obligations.ReceiveOfAnIgnoredFragmentChangesNoRegister := by
  intro s hf hl
  rw [exec_rReceive_of_live hf hl]
  constructor
  · intro seq part fin rest hp hign hmode
    rw [receive_of_ignored_prefixOnly hp hign hmode]
    rfl
  · intro h rest hh hign hmode hlen
    rw [receive_of_ignored_payload hh hign hmode hlen]
    rfl

/-- Settles O31, by what is missing. -/
theorem receiveOfATruncatedIgnoredFragmentUnderflows : Obligations.ReceiveOfATruncatedIgnoredFragmentUnderflows := by
  intro s hf hl hpos hmode hcut
  refine exec_rReceive_of_failReceive s.r hf hl hpos ?_
  rcases hcut with ⟨seq, part, fin, rest, hp, hign, hshort⟩ | ⟨h, rest, hh, hign, hshort⟩
  · exact receive_of_ignored_no_length hp hign hmode hshort
  · exact receive_of_ignored_short_payload hh hign hmode hshort

/-- The part expected after part `p` of a fragment is the next one, or 0 when the fragment is final (R152). -/
theorem toNat_nextPart {p : BitVec 8} {part : PartIndex} (hp : p.toNat = part.toNat) (fin : Bool) :
    (if fin = true then 0 else p + 1).toNat = if fin = true then 0 else part.toNat + 1 := by
  cases fin with
  | true => rfl
  | false =>
    have hlt : p.toNat < 128 := hp ▸ part.isLt
    rw [if_neg Bool.false_ne_true, if_neg Bool.false_ne_true, toNat_part_succ hlt, hp]

/-- Settles O32: the registers and cells of the commit, from the tentative copies of the selected fragment. -/
theorem receiveOfAnAcceptedFragment : Obligations.ReceiveOfAnAcceptedFragment := by
  intro s h payload post cnt hf hl hh hlen hsel hfit
  obtain ⟨t, ht, hseq, hpart, hrecv, rfl⟩ := selectFragment_of_selectedAt hsel
  rw [exec_rReceive_of_live hf hl, receive_of_selected hh hlen ht (by rwa [hlen]), hlen]
  have hrecv' : recvAfter h.fin t.recv = !h.fin := by rw [recvAfter, hrecv, Bool.and_true]
  have hcells : ∀ a, (s.r.buf.memWrite t.count.toNat payload).read a =
      if t.count.toNat ≤ a ∧ a < t.count.toNat + h.len.toNat then payload[a - t.count.toNat]? else s.r.buf.read a := by
    intro a
    rw [read_memWrite, hlen]
  exact ⟨_, rfl, hseq, toNat_nextPart hpart h.fin, hrecv', rfl, toNat_count_add hfit, hl, hf, hcells,
    rfl, rfl, rfl, rfl, rfl, rfl, rfl⟩

/-- Settles O33: the capacity is checked from the tentative count of the selected fragment. -/
theorem receiveBeyondCapacityChangesNoRegisterOrCell : Obligations.ReceiveBeyondCapacityChangesNoRegisterOrCell := by
  intro s h rest cnt hf hl hpos hh hsel hover
  obtain ⟨t, ht, -, -, -, rfl⟩ := selectFragment_of_selectedAt hsel
  exact exec_rReceive_of_failReceive s.r hf hl hpos (receive_of_selected_overflow hh ht hover)

/-- Settles O34, by what is missing: the length, or bytes of the payload. -/
theorem receiveOfATruncatedSelectedFragmentUnderflows :
    Obligations.ReceiveOfATruncatedSelectedFragmentUnderflows := by
  intro s hf hl hpos
  constructor
  · intro seq part fin rest cnt hp hsel hshort
    obtain ⟨t, ht, -⟩ := selectFragment_of_selectedAt hsel
    exact exec_rReceive_of_failReceive s.r hf hl hpos (receive_of_selected_no_length hp ht hshort)
  · intro h rest cnt hh hsel hfit hshort
    obtain ⟨t, ht, -, -, -, rfl⟩ := selectFragment_of_selectedAt hsel
    obtain ⟨pos, hge, hle, hexec⟩ := exec_rReceive_of_failReceive _ hf hl hpos
      (receive_of_selected_short_payload hh ht hfit hshort)
    exact ⟨pos, _, hge, hle, read_forget _ _ _, hexec⟩

/-! ## What every failed `R.RECEIVE` keeps (R154) -/

/-- A failed receive ends as `failReceive`, with at most target cells forgotten, and none when the capacity is exceeded. -/
theorem receive_of_failed_response {s : State} {rsp : Response} (hr : (receive s).responses = rsp :: s.responses)
    (hst : rsp.status = .streamUnderflow ∨ rsp.status = .capacityExceeded) :
    ∃ buf : Memory, receive s = failReceive rsp.status { s with r := { s.r with buf := buf } } ∧
      (rsp.status = .capacityExceeded → buf = s.r.buf) ∧
      ∀ a, buf.read a = s.r.buf.read a ∨
        (buf.read a = none ∧ ∃ x n, targetCells s = some (x, n) ∧ x ≤ a ∧ a < x + n) := by
  rcases receive_cases s with ⟨st, -, e⟩ | ⟨n, -, -, e⟩ | ⟨_, _, t, len, -, htarget, -, e⟩ |
    ⟨_, _, t, fin, len, bs, -, -, -, -, -, e⟩ <;> rw [e] at hr ⊢ <;> cases hr
  · exact ⟨s.r.buf, rfl, fun _ => rfl, fun _ => .inl rfl⟩
  · rcases hst with h | h <;> cases h
  · refine ⟨_, rfl, nofun, fun a => ?_⟩
    rw [read_forget]
    split
    · next ha => exact .inr ⟨rfl, _, _, htarget, ha⟩
    · exact .inl rfl
  · rcases hst with h | h <;> cases h

/-- A `R.RECEIVE` that answers anything but `FAULT` passed `check_live()`. -/
theorem exec_rReceive_of_status_ne_fault {s t : State} {rsp : Response} (h : exec .rReceive s = .next t)
    (hr : t.responses = rsp :: s.responses) (hst : rsp.status ≠ .fault) : t = receive s := by
  obtain ⟨-, rfl⟩ := reassemblerCommand_eq_next.1 h
  rcases whenReassemblerLive_cases drawInputPos receive s with ⟨-, e⟩ | ⟨-, e⟩ | ⟨-, e⟩
  · exact e
  all_goals
    rw [e] at hr
    cases hr
    exact absurd rfl hst

/-- Settles O35: a failed receive forgets cells at most, and answers value 0. -/
theorem failedReceiveKeepsEveryRegister : Obligations.FailedReceiveKeepsEveryRegister := by
  intro s t rsp h hr hst
  have hrun : t = receive s := exec_rReceive_of_status_ne_fault h hr (by rcases hst with e | e <;> rw [e] <;> decide)
  subst hrun
  obtain ⟨buf, e, hkept, hcells⟩ := receive_of_failed_response hr hst
  rw [e] at hr ⊢
  have hvalue : rsp.value = 0 := (congrArg Response.value (List.cons.inj hr).1).symm
  exact ⟨rfl, rfl, rfl, rfl, rfl, rfl, rfl, rfl, hvalue, hkept, hcells⟩

end Sys2Proof.Machine

/-! PROOFS of the obligations of 60_exceptions.md: what taking a lifecycle fault does (R185, R187), that a faulted unit takes no
step and ends no run (R186), the statuses that write nothing (R184), and the numbers of all codes (R180, R185). -/

namespace Sys2Proof.Machine

/-! ## Lifecycle faults (R185, R187) -/

/-- What a command does to the interface before it answers a lifecycle fault: `R.RECEIVE` leaves `in'.pos` to a draw
(20_memory.md R62; log 6), every other command leaves the interface alone. -/
def beforeFault : Instr → State → State
  | .rReceive => drawInputPos
  | _ => id

theorem beforeFault_of_ne {i : Instr} (h : i ≠ .rReceive) (s : State) : beforeFault i s = s := by
  cases i with
  | rReceive => exact absurd rfl h
  | wInit | wAdvseq | wWrhdr | rInit | rDestroy | rReset | rIscomplete | rRdcount | rRdbuf => rfl

/-- Every Reassembler command but `R.INIT` and `R.DESTROY` begins with `check_live()`. -/
theorem exec_eq_checked {i : Instr} (hi : isWriterCommand i = false) (hinit : i ≠ .rInit) (hdestroy : i ≠ .rDestroy) :
    ∃ k, ∀ s, exec i s = reassemblerCommand (whenReassemblerLive (beforeFault i) k) s := by
  cases i with
  | wInit | wAdvseq | wWrhdr => cases hi
  | rInit => exact absurd rfl hinit
  | rDestroy => exact absurd rfl hdestroy
  | rReset | rIscomplete | rReceive | rRdcount | rRdbuf => exact ⟨_, fun _ => rfl⟩

/-- `i` takes the lifecycle fault `f`: only the fault register and the response change, and with `R.RECEIVE` the read position,
within its bounds, by a draw. -/
def TakesReassemblerFault (i : Instr) (s : State) (f : ReassemblerFault) : Prop :=
  ∃ pos draws,
    exec i s = .next
      { s with
        r := { s.r with fault := f }
        inp := ⟨s.inp.data, pos⟩
        draws := draws
        responses := ⟨.fault, f.code, ⟨s.inp.data, pos⟩, s.out⟩ :: s.responses } ∧
    s.inp.pos ≤ pos ∧ (s.inp.pos ≤ s.inp.data.length → pos ≤ s.inp.data.length) ∧
    (i ≠ .rReceive → pos = s.inp.pos ∧ draws = s.draws)

/-- Raising a fault takes it; the position is the one `drawInputPos` draws, or the one it was. -/
theorem takesReassemblerFault_of_raise {i : Instr} {s : State} {f : ReassemblerFault}
    (h : exec i s = .next (raiseReassemblerFault f (beforeFault i s))) : TakesReassemblerFault i s f := by
  by_cases hi : i = .rReceive
  · subst hi
    obtain ⟨hge, hle⟩ := drawInputPos_bounds s
    exact ⟨(drawInputPos s).inp.pos, s.draws + 1, h, hge, hle, fun hne => absurd rfl hne⟩
  · rw [beforeFault_of_ne hi] at h
    exact ⟨s.inp.pos, s.draws, h, Nat.le_refl _, id, fun _ => ⟨rfl, rfl⟩⟩

/-- Before `R.INIT` every other Reassembler command faults, `R.DESTROY` too. -/
theorem takesReassemblerFault_of_uninit {i : Instr} {s : State} (hf : s.r.fault = .none) (hl : s.r.life = .uninit)
    (hi : isWriterCommand i = false) (hinit : i ≠ .rInit) : TakesReassemblerFault i s .useBeforeInit := by
  apply takesReassemblerFault_of_raise
  by_cases hdestroy : i = .rDestroy
  · subst hdestroy
    rw [exec, execRDestroy, reassemblerCommand_of_none hf, hl]
    rfl
  · obtain ⟨k, hexec⟩ := exec_eq_checked hi hinit hdestroy
    rw [hexec, reassemblerCommand_of_none hf, whenReassemblerLive_of_uninit hl]

theorem takesReassemblerFault_of_destroyed {i : Instr} {s : State} (hf : s.r.fault = .none) (hl : s.r.life = .destroyed)
    (hi : isWriterCommand i = false) (hinit : i ≠ .rInit) (hdestroy : i ≠ .rDestroy) :
    TakesReassemblerFault i s .useAfterDestroy := by
  apply takesReassemblerFault_of_raise
  obtain ⟨k, hexec⟩ := exec_eq_checked hi hinit hdestroy
  rw [hexec, reassemblerCommand_of_none hf, whenReassemblerLive_of_destroyed hl]

theorem rDestroy_takes_doubleDestroy {s : State} (hf : s.r.fault = .none) (hl : s.r.life = .destroyed) :
    TakesReassemblerFault .rDestroy s .doubleDestroy := by
  apply takesReassemblerFault_of_raise
  rw [exec, execRDestroy, reassemblerCommand_of_none hf, hl]
  rfl

theorem rInit_takes_initWhileLive {s : State} (hf : s.r.fault = .none) (hl : s.r.life = .live) :
    TakesReassemblerFault .rInit s .initWhileLive := by
  apply takesReassemblerFault_of_raise
  rw [exec, execRInit, reassemblerCommand_of_none hf, hl]
  rfl

/-- Settles O27, by the rows of R185. -/
theorem lifecycleFaultsAreTaken : Obligations.LifecycleFaultsAreTaken := by
  constructor
  · rintro s i hf hl (rfl | ⟨f, len, rfl⟩)
    · rw [exec, execWAdvseq, writerCommand_of_none hf, whenWriterLive_of_uninit hl]
      rfl
    · rw [exec, execWWrhdr, writerCommand_of_none hf, whenWriterLive_of_uninit hl]
      rfl
  · rintro s i f code hf (⟨hl, hi, hinit, rfl, rfl⟩ | ⟨hl, hi, hinit, hdestroy, rfl, rfl⟩ | ⟨hl, rfl, rfl, rfl⟩ |
      ⟨hl, rfl, rfl, rfl⟩)
    · exact takesReassemblerFault_of_uninit hf hl hi hinit
    · exact takesReassemblerFault_of_destroyed hf hl hi hinit hdestroy
    · exact rDestroy_takes_doubleDestroy hf hl
    · exact rInit_takes_initWhileLive hf hl

/-! ## A faulted unit (R186) -/

theorem writerCommand_of_faulted {k : State → State} {s : State} (h : s.w.fault ≠ .none) :
    writerCommand k s = .fault .writerFaulted := by
  unfold writerCommand
  cases hf : s.w.fault with
  | none => exact absurd hf h
  | useBeforeInit => rfl

theorem reassemblerCommand_of_faulted {k : State → State} {s : State} (h : s.r.fault ≠ .none) :
    reassemblerCommand k s = .fault .reassemblerFaulted := by
  unfold reassemblerCommand
  cases hf : s.r.fault with
  | none => exact absurd hf h
  | useBeforeInit | useAfterDestroy | doubleDestroy | initWhileLive => rfl

/-- Two changes of the next state that agree on the state a command answers give the same outcome. -/
theorem mapNext_congr {f g : State → State} {o : Host.Outcome State Fault Refusal} (h : ∀ t, o = .next t → f t = g t) :
    mapNext f o = mapNext g o := by
  cases o with
  | next t => exact congrArg _ (h t rfl)
  | fault | refused => rfl

/-- Settles O28: a command's guard is its own unit's fault register, and its body ignores the other unit. -/
theorem faultedUnitTakesNoStep : Obligations.FaultedUnitTakesNoStep := by
  intro s i
  refine ⟨fun hi hf => ?_, fun hi hf => ?_, fun hi f => ?_, fun hi f => ?_⟩
  · obtain ⟨k, -, hexec⟩ := exec_eq_writerCommand hi
    rw [hexec, writerCommand_of_faulted hf]
  · obtain ⟨k, -, hexec⟩ := exec_eq_reassemblerCommand hi
    rw [hexec, reassemblerCommand_of_faulted hf]
  · rw [(unitsShareNoState s i).1 hi]
    exact mapNext_congr fun t ht => by rw [(exec_writer_frame hi ht).2]
  · rw [(unitsShareNoState s i).2 hi]
    exact mapNext_congr fun t ht => by rw [(exec_reassembler_frame hi ht).2]

/-! ## The statuses that write nothing (R184) -/

/-- The statuses of R184. -/
abbrev IsRejecting (st : Status) : Prop := st = .partOverflow ∨ st = .illegalCommand ∨ st = .addressOutOfRange

/-- If the newest response of `t` rejects, then `t` is `s` with that response, of value 0, and nothing else. -/
def RejectsWithoutWriting (s t : State) : Prop :=
  ∀ rsp : Response, t.responses = rsp :: s.responses → IsRejecting rsp.status → t = respond rsp.status 0 s

theorem rejectsWithoutWriting_respond (st : Status) (s : State) : RejectsWithoutWriting s (respond st 0 s) := by
  rintro rsp hr -
  cases hr
  rfl

/-- A response that does not reject may come with any write. -/
theorem rejectsWithoutWriting_of_not_rejecting {st : Status} (h : ¬ IsRejecting st) (v : Word) (s u : State) :
    RejectsWithoutWriting s (respond st v u) := by
  intro rsp hr hst
  have hhead : (⟨st, v, u.inp, u.out⟩ : Response) = rsp := (List.cons.inj hr).1
  subst hhead
  exact absurd hst h

theorem rejectsWithoutWriting_ok (v : Word) (s u : State) : RejectsWithoutWriting s (respond .ok v u) :=
  rejectsWithoutWriting_of_not_rejecting (by decide) v s u

theorem rejectsWithoutWriting_raiseReassemblerFault (f : ReassemblerFault) (s u : State) :
    RejectsWithoutWriting s (raiseReassemblerFault f u) :=
  rejectsWithoutWriting_of_not_rejecting (by decide) _ _ _

theorem rejectsWithoutWriting_whenWriterLive {k : State → State} {s : State} (hk : RejectsWithoutWriting s (k s)) :
    RejectsWithoutWriting s (whenWriterLive k s) := by
  rcases whenWriterLive_cases k s with ⟨-, e⟩ | ⟨-, e⟩ <;> rw [e]
  · exact hk
  · exact rejectsWithoutWriting_of_not_rejecting (by decide) _ _ _

theorem rejectsWithoutWriting_whenReassemblerLive {k : State → State} {s : State} (g : State → State)
    (hk : RejectsWithoutWriting s (k s)) : RejectsWithoutWriting s (whenReassemblerLive g k s) := by
  rcases whenReassemblerLive_cases g k s with ⟨-, e⟩ | ⟨-, e⟩ | ⟨-, e⟩ <;> rw [e]
  · exact hk
  · exact rejectsWithoutWriting_raiseReassemblerFault _ _ _
  · exact rejectsWithoutWriting_raiseReassemblerFault _ _ _

/-- The part overflow is answered before anything is written (40_writer.md R116). -/
theorem rejectsWithoutWriting_writeHeader (f : Bool) (len : Half) (s : State) :
    RejectsWithoutWriting s (writeHeader f len s) := by
  rcases writeHeader_cases f len s with ⟨-, e⟩ | ⟨-, -, e⟩ | ⟨-, -, e⟩ <;> rw [e]
  · exact rejectsWithoutWriting_respond _ s
  · exact rejectsWithoutWriting_of_not_rejecting (by decide) _ _ _
  · exact rejectsWithoutWriting_ok _ _ _

/-- `R.RECEIVE` answers none of the three statuses. -/
theorem rejectsWithoutWriting_receive (s : State) : RejectsWithoutWriting s (receive s) := by
  rcases receive_cases s with ⟨st, hst, e⟩ | ⟨n, -, -, e⟩ | ⟨_, _, t, len, -, -, -, e⟩ |
    ⟨_, _, t, fin, len, bs, -, -, -, -, -, e⟩ <;> rw [e]
  · exact rejectsWithoutWriting_of_not_rejecting (by rcases hst with rfl | rfl <;> decide) _ _ _
  · exact rejectsWithoutWriting_ok _ _ _
  · exact rejectsWithoutWriting_of_not_rejecting (by decide) _ _ _
  · exact rejectsWithoutWriting_ok _ _ _

theorem rejectsWithoutWriting_readBuffer (addr : Word) (s : State) : RejectsWithoutWriting s (readBuffer addr s) := by
  rcases readBuffer_cases addr s with ⟨-, e⟩ | ⟨b, n, -, e⟩ <;> rw [e]
  · exact rejectsWithoutWriting_respond _ s
  · exact rejectsWithoutWriting_ok _ _ _

theorem exec_rejectsWithoutWriting {i : Instr} {s t : State} (h : exec i s = .next t) : RejectsWithoutWriting s t := by
  cases i with
  | wInit =>
    rw [exec, execWInit] at h
    obtain ⟨-, rfl⟩ := writerCommand_eq_next.1 h
    exact rejectsWithoutWriting_ok _ _ _
  | wAdvseq =>
    obtain ⟨-, rfl⟩ := writerCommand_eq_next.1 h
    exact rejectsWithoutWriting_whenWriterLive (rejectsWithoutWriting_ok _ _ _)
  | wWrhdr f len =>
    obtain ⟨-, rfl⟩ := writerCommand_eq_next.1 h
    exact rejectsWithoutWriting_whenWriterLive (rejectsWithoutWriting_writeHeader f len s)
  | rInit =>
    rw [exec, execRInit] at h
    obtain ⟨-, rfl⟩ := reassemblerCommand_eq_next.1 h
    cases s.r.life with
    | live => exact rejectsWithoutWriting_raiseReassemblerFault _ _ _
    | uninit | destroyed => exact rejectsWithoutWriting_ok _ _ _
  | rDestroy =>
    rw [exec, execRDestroy] at h
    obtain ⟨-, rfl⟩ := reassemblerCommand_eq_next.1 h
    cases s.r.life with
    | live => exact rejectsWithoutWriting_ok _ _ _
    | uninit | destroyed => exact rejectsWithoutWriting_raiseReassemblerFault _ _ _
  | rReset | rIscomplete | rRdcount =>
    obtain ⟨-, rfl⟩ := reassemblerCommand_eq_next.1 h
    exact rejectsWithoutWriting_whenReassemblerLive id (rejectsWithoutWriting_ok _ _ _)
  | rReceive =>
    obtain ⟨-, rfl⟩ := reassemblerCommand_eq_next.1 h
    exact rejectsWithoutWriting_whenReassemblerLive drawInputPos (rejectsWithoutWriting_receive s)
  | rRdbuf addr =>
    obtain ⟨-, rfl⟩ := reassemblerCommand_eq_next.1 h
    exact rejectsWithoutWriting_whenReassemblerLive id (rejectsWithoutWriting_readBuffer addr s)

theorem step_rejectsWithoutWriting {s t : State} {c : Command} {rest : List HostEvent}
    (hp : s.pending = .command c :: rest) (h : step s = .next t) : RejectsWithoutWriting (acceptCommand c rest s) t := by
  rcases step_cases h with ⟨hp', -⟩ | ⟨rest', hp', -⟩ | ⟨c', rest', e, hp', -, -, rfl⟩ | ⟨c', rest', i, hp', -, -, he⟩ <;>
    cases hp.symm.trans hp'
  · exact rejectsWithoutWriting_respond _ _
  · exact exec_rejectsWithoutWriting he

/-- Settles O43: a rejected command is accepted and answered, and nothing else. -/
theorem rejectingStatusesWriteNothing : Obligations.RejectingStatusesWriteNothing := by
  intro s t c rest rsp hp h hr hst
  have e : t = respond rsp.status 0 (acceptCommand c rest s) := step_rejectsWithoutWriting hp h rsp hr hst
  have hrsp : rsp = ⟨rsp.status, 0, c.inp, c.out⟩ := (List.cons.inj (hr.symm.trans (congrArg State.responses e))).1
  rw [e]
  exact ⟨congrArg Response.value hrsp, congrArg Response.inp hrsp, congrArg Response.out hrsp, by rw [hrsp]; rfl⟩

/-! ## The end of a run (R186) -/

/-- After `n` steps the first `n` events are off the host's list. -/
theorem runSteps_pending {n : Nat} {s t : State} (h : runSteps n s = .next t) : t.pending = s.pending.drop n := by
  induction n generalizing s with
  | zero => cases h; rfl
  | succ n ih =>
    obtain ⟨u, hu, hrun⟩ := runSteps_succ_eq_next h
    rw [ih hrun, step_pending hu, List.drop_tail]

/-- A run of `m + n` steps passes through the state after `m`. -/
theorem runSteps_add_eq_next {m n : Nat} {s t : State} (h : runSteps (m + n) s = .next t) :
    ∃ u, runSteps m s = .next u ∧ runSteps n u = .next t := by
  induction m generalizing s with
  | zero => exact ⟨s, rfl, by rwa [Nat.zero_add] at h⟩
  | succ m ih =>
    rw [Nat.add_right_comm] at h
    obtain ⟨v, hv, hrun⟩ := runSteps_succ_eq_next h
    obtain ⟨u, hu, hut⟩ := ih hrun
    exact ⟨u, (runSteps_succ hv m).trans hu, hut⟩

/-- A run that has used up the host's list is where it was when the list ran out. -/
theorem runSteps_length_of_pending_nil {n : Nat} {s t : State} (h : runSteps n s = .next t) (hp : t.pending = []) :
    runSteps s.pending.length s = .next t := by
  have hlen : s.pending.length ≤ n := List.drop_eq_nil_iff.1 ((runSteps_pending h).symm.trans hp)
  obtain ⟨k, rfl⟩ := Nat.exists_eq_add_of_le hlen
  obtain ⟨u, hu, hrun⟩ := runSteps_add_eq_next h
  have hidle : u.pending = [] := (runSteps_pending hu).trans List.drop_length
  rw [runSteps_idle hidle] at hrun
  rw [hu, hrun]

theorem runToEnd_of_pending_nil {s : State} (h : s.pending = []) : runToEnd s = endOfRun s := by
  rw [runToEnd, h]
  rfl

theorem endOfRun_of_writer_faulted {s : State} (h : s.w.fault ≠ .none) : endOfRun s = .fault .writerFaulted := by
  unfold endOfRun
  cases hf : s.w.fault with
  | none => exact absurd hf h
  | useBeforeInit => rfl

theorem endOfRun_of_reassembler_faulted {s : State} (hw : s.w.fault = .none) (hr : s.r.fault ≠ .none) :
    endOfRun s = .fault .reassemblerFaulted := by
  unfold endOfRun
  rw [hw]
  cases hf : s.r.fault with
  | none => exact absurd hf hr
  | useBeforeInit | useAfterDestroy | doubleDestroy | initWhileLive => rfl

/-- A fault survives every step but an asserted reset (10_state.md R25, R33). -/
theorem step_keeps_faulted {s t : State} (h : step s = .next t) (hreset : HostEvent.assertReset ∉ s.pending)
    (hf : ¬ NotFaulted s) : ¬ NotFaulted t := by
  obtain ⟨hw, hr⟩ := (parametersAndFaultsStay s t h).2 fun rest hp => hreset (hp ▸ List.mem_cons_self)
  rintro ⟨hwt, hrt⟩
  have hws : s.w.fault = .none := by
    by_contra hne
    exact hne ((hw hne).symm.trans hwt)
  have hrs : s.r.fault = .none := by
    by_contra hne
    exact hne ((hr hne).symm.trans hrt)
  exact hf ⟨hws, hrs⟩

theorem runSteps_keeps_faulted {n : Nat} {s t : State} (h : runSteps n s = .next t)
    (hreset : HostEvent.assertReset ∉ s.pending) (hf : ¬ NotFaulted s) : ¬ NotFaulted t := by
  induction n generalizing s with
  | zero => cases h; exact hf
  | succ n ih =>
    obtain ⟨u, hu, hrun⟩ := runSteps_succ_eq_next h
    refine ih hrun (fun hmem => hreset ?_) (step_keeps_faulted hu hreset hf)
    rw [step_pending hu] at hmem
    exact List.mem_of_mem_tail hmem

/-- Settles O46, from where a run ends and what it keeps on its way. -/
theorem faultedStateIsNeverFinal : Obligations.FaultedStateIsNeverFinal := by
  refine ⟨fun s t h => ?_, fun s t n h hfinal => ?_, fun s hp => ⟨fun hw => ?_, fun hw hr => ?_⟩,
    fun s hf hreset t => ?_⟩
  · obtain ⟨hrun, hw, hr⟩ := runToEnd_eq_next.1 h
    exact ⟨hrun, (runSteps_pending hrun).trans List.drop_length, hw, hr⟩
  · obtain ⟨hp, hnf⟩ := hfinal
    exact runToEnd_eq_next.2 ⟨runSteps_length_of_pending_nil h hp, hnf⟩
  · rw [runToEnd_of_pending_nil hp, endOfRun_of_writer_faulted hw]
  · rw [runToEnd_of_pending_nil hp, endOfRun_of_reassembler_faulted hw hr]
  · have hfaulted : ¬ NotFaulted s := fun ⟨hw, hr⟩ => hf.elim (absurd hw) (absurd hr)
    refine ⟨fun hend => ?_, fun n hrun ⟨_, hnf⟩ => runSteps_keeps_faulted hrun hreset hfaulted hnf⟩
    obtain ⟨hrun, hnf⟩ := runToEnd_eq_next.1 hend
    exact runSteps_keeps_faulted hrun hreset hfaulted hnf

/-! ## The codes (R180, R185) -/

/-- No status code lies between 0x06 and 0xFF (R180). -/
theorem status_code_range (st : Status) : st.code.toNat ≤ 6 ∨ st.code.toNat = 0xFF := by
  cases st <;> decide

/-- Settles O14, by the tables of codes. -/
theorem statusAndFaultCodes : Obligations.StatusAndFaultCodes :=
  ⟨rfl, rfl, rfl, rfl, rfl, rfl, status_code_range⟩

end Sys2Proof.Machine

/-! PROOFS of the obligations of 70_reset_and_hazards.md: the power-on values (R210), and the invariant at reset. -/

namespace Sys2Proof.Machine

/-- Every cell of the buffer is `unknown` at power-on (R210). -/
theorem reassembler_powerOn_read (a : Nat) : Reassembler.powerOn.buf.read a = none := by
  rw [reassembler_powerOn_buf, read_nil]

/-- An asserted reset is a step that cannot fail (R210). -/
theorem step_of_assertReset {s : State} {rest : List HostEvent} (h : s.pending = .assertReset :: rest) :
    step s = .next (applyReset { s with pending := rest }) := by
  rw [step, h]

/-- Settles O13: `State.powerOn` and `applyReset` give both units the same power-on registers. -/
theorem powerOnAndAssertedReset : Obligations.PowerOnAndAssertedReset := by
  refine ⟨fun p => ?_, fun s rest h => ⟨_, step_of_assertReset h, ?_⟩⟩
  · exact ⟨rfl, writer_powerOn_life, writer_powerOn_fault, reassembler_powerOn_life, reassembler_powerOn_fault,
      reassembler_powerOn_read, powerOn_params p⟩
  · exact ⟨writer_powerOn_life, writer_powerOn_fault, reassembler_powerOn_life, reassembler_powerOn_fault,
      reassembler_powerOn_read, applyReset_params _, applyReset_inp _, applyReset_out _, applyReset_responses _,
      applyReset_pending _, applyReset_draws _⟩

/-- No unit is `Live` at power-on, no cell is listed and the operand stream is empty. -/
theorem inv_powerOn (p : Params) : Inv (State.powerOn p) :=
  ⟨bufferOk_nil reassembler_powerOn_buf, nofun, nofun, Nat.le_refl 0⟩

/-- Settles O38: `State.reset` is a power-on state. -/
theorem resetMeetsTheInvariant : Obligations.ResetMeetsTheInvariant :=
  ⟨inv_powerOn Config.params, inv_powerOn⟩

end Sys2Proof.Machine

/-! PROOFS of the round-trip law of the header (30_encoding.md R86), of a step with nothing to issue
(60_exceptions.md R198), and of the header stream of one blob (40_writer.md R118). -/

namespace Sys2Proof.Machine

/-! ## Decoding an encoded header (R86) -/

/-- Below part 128 the part/final byte of both modes is the one a blob's fragment carries (R115, R118). -/
theorem pfByte_eq_blobPartByte (mode : PartOverflowMode) {p : BitVec 8} (h : p.toNat < 128) (f : Bool) :
    pfByte mode p f = blobPartByte p.toNat f := by
  obtain ⟨herror, hwrap⟩ := partFinalByteOfBothModes p f
  apply BitVec.eq_of_toNat_eq
  rw [toNat_blobPartByte h]
  cases mode with
  | error => rw [herror, Nat.mod_eq_of_lt h]
  | sourceWrap => simp only [hwrap, Nat.mod_eq_of_lt h, Nat.not_le_of_lt h, or_false]

/-- A header has five bytes, and they decode to the sequence id, the length, and the two fields of the part/final byte. -/
theorem decodeHeader_encodeHeader (o : ByteOrder) (seq : Half) (pf : Byte) (len : Half) :
    ∃ b0 b1 b2 b3 b4, encodeHeader o seq pf len = [b0, b1, b2, b3, b4] ∧
      decodeHeader o b0 b1 b2 b3 b4 = ⟨seq, partOf pf, isFinalOf pf, len⟩ := by
  obtain ⟨b0, b1, hseq, hseqv, -⟩ := u16Bytes_spec o seq
  obtain ⟨b3, b4, hlen, hlenv, -⟩ := u16Bytes_spec o len
  refine ⟨b0, b1, pf, b3, b4, by simp [encodeHeader, hseq, hlen], ?_⟩
  rw [decodeHeader, hseqv, hlenv]

/-- Settles O7: the writer's byte carries the part below its flag. -/
theorem headerDecodesAsEncoded : Obligations.HeaderDecodesAsEncoded := by
  intro o seq p f len hp
  have hbyte : p ||| finalBit f = blobPartByte p.toNat f := pfByte_eq_blobPartByte .sourceWrap hp f
  obtain ⟨b0, b1, b2, b3, b4, henc, hdec⟩ := decodeHeader_encodeHeader o seq (p ||| finalBit f) len
  refine ⟨b0, b1, b2, b3, b4, henc, ?_⟩
  rw [hdec, hbyte]
  exact ⟨rfl, toNat_partOf_blobPartByte hp f, isFinalOf_blobPartByte hp f, rfl⟩

/-! ## A step with nothing to issue (60_exceptions.md R198) -/

/-- Settles O12: a step first looks at what the host has still to issue. -/
theorem stepWithoutACommandKeepsTheState : Obligations.StepWithoutACommandKeepsTheState := by
  intro s h
  rw [step, h]

/-! ## The headers of one blob (R118) -/

/-- The response to a `W.WRHDR` whose header `h` fills the output stream it was given. -/
def headerResponse (h : List Byte) : Response := ⟨.ok, 0, ⟨[], 0⟩, ⟨h, 0⟩⟩

/-- From `s` to `t` the Writer answered `OK` with the headers `hs`, one after the other, counting a part for each; its
sequence id, the Reassembler and the parameters are kept. -/
structure EmitsHeaders (hs : List (List Byte)) (rest : List HostEvent) (s t : State) : Prop where
  life      : t.w.life = s.w.life
  fault     : t.w.fault = s.w.fault
  seq       : t.w.seq = s.w.seq
  part      : t.w.part.toNat = s.w.part.toNat + hs.length
  r         : t.r = s.r
  params    : t.params = s.params
  pending   : t.pending = rest
  responses : t.responses = (hs.map headerResponse).reverse ++ s.responses

theorem EmitsHeaders.cons {h : List Byte} {hs : List (List Byte)} {rest rest' : List HostEvent} {s u t : State}
    (e : EmitsHeaders [h] rest' s u) (e' : EmitsHeaders hs rest u t) : EmitsHeaders (h :: hs) rest s t where
  life := e'.life.trans e.life
  fault := e'.fault.trans e.fault
  seq := e'.seq.trans e.seq
  part := by rw [e'.part, e.part, List.length_singleton, List.length_cons, Nat.add_assoc, Nat.add_comm 1]
  r := e'.r.trans e.r
  params := e'.params.trans e.params
  pending := e'.pending
  responses := by simp [e'.responses, e.responses]

/-- The step on the word of a command runs that command, on the operands the host gave (R38). -/
theorem step_of_encode {s : State} {c : Command} {rest : List HostEvent} {i : Instr}
    (hp : s.pending = .command c :: rest) (hc : c.word = encode i) (hi : i.wf = true) (hinp : c.inp.wf) :
    step s = exec i (acceptCommand c rest s) :=
  stepRunsTheDecodedCommand s c rest i hp hinp (hc ▸ decodeEncodeEveryCommand i hi)

/-- The `W.WRHDR` of a blob's fragment, with exactly the room its header takes. -/
def headerCommand (f : Bool) (len : Half) : Command := ⟨encode (.wWrhdr f len), ⟨[], 0⟩, ⟨[], 5⟩⟩

/-- The first command is final exactly when no fragment follows. -/
theorem headerCommands_cons (len : Half) (lens : List Half) :
    headerCommands (len :: lens) = .command (headerCommand lens.isEmpty len) :: headerCommands lens := rfl

/-- The first header is final exactly when no fragment follows. -/
theorem blobHeaders_cons (o : ByteOrder) (seq : Half) (i : Nat) (len : Half) (lens : List Half) :
    blobHeaders o seq i (len :: lens) =
      encodeHeader o seq (blobPartByte i lens.isEmpty) len :: blobHeaders o seq (i + 1) lens := rfl

/-- A `W.WRHDR` below part 128 emits its header (R114, R115). -/
theorem step_headerCommand {s : State} {f : Bool} {len : Half} {rest : List HostEvent} (hf : s.w.fault = .none)
    (hl : s.w.life = .live) (hpart : s.w.part.toNat < 128) (hp : s.pending = .command (headerCommand f len) :: rest) :
    ∃ u, step s = .next u ∧
      EmitsHeaders [encodeHeader s.params.byteOrder s.w.seq (blobPartByte s.w.part.toNat f) len] rest s u := by
  have hstep := step_of_encode hp rfl rfl (Nat.le_refl 0)
  rw [exec_wWrhdr_of_live (s := acceptCommand _ rest s) hf hl,
    writeHeader_of_room (s := acceptCommand (headerCommand f len) rest s) (fun _ => hpart) (Nat.le_refl 5)] at hstep
  refine ⟨_, hstep, rfl, rfl, rfl, toNat_part_succ hpart, rfl, rfl, rfl, ?_⟩
  rw [← pfByte_eq_blobPartByte s.params.overflowMode hpart]
  rfl

theorem length_blobHeaders (o : ByteOrder) (seq : Half) (i : Nat) (lens : List Half) :
    (blobHeaders o seq i lens).length = lens.length := by
  induction lens generalizing i with
  | nil => rfl
  | cons len lens ih => rw [blobHeaders_cons, List.length_cons, ih, List.length_cons]

/-- One `W.WRHDR` for each length emits the blob's headers from the Writer's part on. -/
theorem runSteps_headerCommands {rest : List HostEvent} (lens : List Half) :
    ∀ {s : State}, s.w.fault = .none → s.w.life = .live → s.w.part.toNat + lens.length ≤ 128 →
      s.pending = headerCommands lens ++ rest →
      ∃ t, runSteps lens.length s = .next t ∧
        EmitsHeaders (blobHeaders s.params.byteOrder s.w.seq s.w.part.toNat lens) rest s t := by
  induction lens with
  | nil =>
    intro s _ _ _ hp
    exact ⟨s, rfl, rfl, rfl, rfl, rfl, rfl, rfl, hp, rfl⟩
  | cons len lens ih =>
    intro s hf hl hparts hp
    rw [List.length_cons] at hparts
    rw [headerCommands_cons, List.cons_append] at hp
    rw [blobHeaders_cons]
    obtain ⟨u, hstep, hfirst⟩ := step_headerCommand hf hl (by omega) hp
    have hpart : u.w.part.toNat = s.w.part.toNat + 1 := hfirst.part
    obtain ⟨t, hrun, hmore⟩ := ih (hfirst.fault.trans hf) (hfirst.life.trans hl) (by omega) hfirst.pending
    rw [hfirst.params, hfirst.seq, hpart] at hmore
    exact ⟨t, (runSteps_succ hstep _).trans hrun, hfirst.cons hmore⟩

theorem exec_wAdvseq_of_live {s : State} (hf : s.w.fault = .none) (hl : s.w.life = .live) :
    exec .wAdvseq s = .next (respond .ok 0 { s with w := { s.w with seq := s.w.seq + 1, part := 0 } }) := by
  rw [exec, execWAdvseq, writerCommand_of_none hf, whenWriterLive_of_live hl]

/-- The step on `W.ADVSEQ`, by what the blob's headers depend on (R112). -/
theorem step_advseq {s : State} {c : Command} {rest : List HostEvent} (hf : s.w.fault = .none)
    (hl : s.w.life = .live) (hp : s.pending = .command c :: rest) (hc : c.word = encode .wAdvseq) (hinp : c.inp.wf) :
    ∃ u, step s = .next u ∧ u.w = { s.w with seq := s.w.seq + 1, part := 0 } ∧ u.r = s.r ∧ u.params = s.params ∧
      u.pending = rest ∧ u.responses = ⟨.ok, 0, c.inp, c.out⟩ :: s.responses := by
  have hstep := step_of_encode hp hc rfl hinp
  rw [exec_wAdvseq_of_live (s := acceptCommand c rest s) hf hl] at hstep
  exact ⟨_, hstep, rfl, rfl, rfl, rfl, rfl⟩

/-- Settles O20: `W.ADVSEQ` clears the part counter, and the run over the header commands counts from there. -/
theorem writerEmitsTheHeadersOfABlob : Obligations.WriterEmitsTheHeadersOfABlob := by
  intro s lens rest hf hl _ h128 hp
  obtain ⟨u, hadv, hw, hr, hparams, hpending, hresponses⟩ := step_advseq hf hl hp rfl (Nat.le_refl 0)
  have hpart : u.w.part.toNat = 0 := by rw [hw]; rfl
  obtain ⟨t, hrun, he⟩ := runSteps_headerCommands lens (by rw [hw, hf]) (by rw [hw, hl]) (by omega) hpending
  rw [hparams, hw] at he
  refine ⟨t, (runSteps_succ hadv _).trans hrun, he.seq.trans (by rw [hw]), ?_, he.life.trans (by rw [hw, hl]),
    he.fault.trans (by rw [hw, hf]), he.r.trans hr, he.params.trans hparams, he.pending, ?_⟩
  · rw [he.part, hpart, length_blobHeaders, Nat.zero_add]
  · rw [he.responses, hresponses]
    rfl

end Sys2Proof.Machine
